-- ==== Sys2Proof/Word.lean ====
section
/-! DEFINITION. The word of the register port. -/

namespace Sys2Proof

/-- A value of the register port: every register is read and written as one 64-bit integer
(R37 of 20_memory.md, R8 of 00_scope.md). -/
abbrev Word := BitVec 64

end Sys2Proof
end

