-- ==== Sys2Proof/Config.lean ====
section
/-! DEFINITION. The implementation parameters (R5 and R7 of 00_scope.md). -/

namespace Sys2Proof.Config

/-- The spec's default for WMAX, "where a single value is needed" (R5). It is the value of
State.wmax after reset and nothing else: every meaning reads WMAX from the state (log entry 1). -/
def defaultWmax : Nat := 64

/-- The number of table entries (R7, R28). -/
def tableEntries : Nat := 256

/-- The bits of one input byte (R7). -/
def bitsPerByte : Nat := 8

end Sys2Proof.Config
end

