-- ==== Sys2Proof/Syntax.lean ====
section
/-! DEFINITION. The commands of CRCE command set 1, one constructor per row of the opcode table
(R49 of 30_encoding.md). -/

namespace Sys2Proof

/-- A command. Operands are the unsigned integers of R47 (DATA, NB, N); their ranges are
WellFormed.lean's. No operand names a register: every command reads and writes fixed registers. -/
inductive Instr where
  | nop
  | seed
  | resume
  | feed (data : Nat)
  | feedbits (data nb : Nat)
  | fin
  | unfin
  | finx
  | build
  | tseed
  | tresume
  | tfeed (data : Nat)
  | tfeedbits (data nb : Nat)
  | tfin
  | tunfin
  | tfinx
  | refl (n : Nat)
  | clrerr
  deriving DecidableEq, Repr

end Sys2Proof
end

