-- ==== Sys2Proof/WellFormed.lean ====
section
/-! DEFINITION. The operand ranges of R53 (30_encoding.md): a command outside them is an assembly
error and has no word. -/

namespace Sys2Proof

/-- Every operand lies in the range R53 gives it: byte 0..255, nb 0..7, n 0..127. -/
def Instr.wellFormed : Instr → Bool
  | .feed data | .tfeed data => decide (data ≤ 255)
  | .feedbits data nb | .tfeedbits data nb => decide (data ≤ 255) && decide (nb ≤ 7)
  | .refl n => decide (n ≤ 127)
  | .nop | .seed | .resume | .fin | .unfin | .finx | .build | .tseed | .tresume | .tfin
  | .tunfin | .tfinx | .clrerr => true

/-- The Prop that the well-formedness check passes. -/
abbrev Instr.WellFormed (i : Instr) : Prop := i.wellFormed = true

end Sys2Proof
end

