-- ==== Sys2Proof/Decode.lean ====
section
/-! DEFINITION. Command words: fields, formats, opcodes, the decoder and the encoder
(R46 to R51 of 30_encoding.md), and the error codes a refused command records (R93 of
60_exceptions.md). -/

namespace Sys2Proof

/-- Why a command is refused (R93 of 60_exceptions.md). The decoder answers the first two; the
meanings of Machine/ raise the others. -/
inductive CmdError where
  /-- CMD[7:0] is not an opcode. -/
  | illop
  /-- A reserved bit of the command's format is 1. -/
  | rsvd
  /-- CTRL.WIDTH > WMAX for a command that reads CFG. -/
  | width
  /-- TVALID = 0 for a command that reads TCFG. -/
  | notable
  /-- REFL's N is greater than WMAX. -/
  | range
  deriving DecidableEq, Repr

/-- The code of R93, as STATUS.ERRCODE holds it. -/
def CmdError.code : CmdError → BitVec 4
  | .illop => 1
  | .rsvd => 2
  | .width => 3
  | .notable => 4
  | .range => 5

/-- OP = v[7:0] (R47). -/
def opField (v : Word) : BitVec 8 := v.extractLsb' 0 8

/-- DATA = v[15:8], unsigned (R47). -/
def dataField (v : Word) : Nat := (v.extractLsb' 8 8).toNat

/-- NB = v[18:16], unsigned (R47). -/
def nbField (v : Word) : Nat := (v.extractLsb' 16 3).toNat

/-- N = v[22:16], unsigned (R47). -/
def nField (v : Word) : Nat := (v.extractLsb' 16 7).toNat

/-- The four formats of R48. -/
inductive Format where
  | z | b | k | n
  deriving DecidableEq, Repr

/-- The mask of a format: its ones are OP and the reserved bits (R48). -/
def Format.mask : Format → Word
  | .z => 0xFFFFFFFFFFFFFFFF
  | .b => 0xFFFFFFFFFFFF00FF
  | .k => 0xFFFFFFFFFFF800FF
  | .n => 0xFFFFFFFFFF80FFFF

/-- The format of a command (R49). -/
def Instr.format : Instr → Format
  | .feed _ | .tfeed _ => .b
  | .feedbits _ _ | .tfeedbits _ _ => .k
  | .refl _ => .n
  | .nop | .seed | .resume | .fin | .unfin | .finx | .build | .tseed | .tresume | .tfin
  | .tunfin | .tfinx | .clrerr => .z

/-- The opcode of a command (R49). -/
def Instr.opcode : Instr → BitVec 8
  | .nop => 0x00
  | .seed => 0x01
  | .resume => 0x02
  | .feed _ => 0x03
  | .feedbits _ _ => 0x04
  | .fin => 0x05
  | .unfin => 0x06
  | .finx => 0x07
  | .build => 0x08
  | .tseed => 0x11
  | .tresume => 0x12
  | .tfeed _ => 0x13
  | .tfeedbits _ _ => 0x14
  | .tfin => 0x15
  | .tunfin => 0x16
  | .tfinx => 0x17
  | .refl _ => 0x20
  | .clrerr => 0x3F

/-- The command that OP alone names, its operands read from the word; none for an opcode that
is not in R49. -/
def byOpcode (v : Word) : Option Instr :=
  match (opField v).toNat with
  | 0x00 => some .nop
  | 0x01 => some .seed
  | 0x02 => some .resume
  | 0x03 => some (.feed (dataField v))
  | 0x04 => some (.feedbits (dataField v) (nbField v))
  | 0x05 => some .fin
  | 0x06 => some .unfin
  | 0x07 => some .finx
  | 0x08 => some .build
  | 0x11 => some .tseed
  | 0x12 => some .tresume
  | 0x13 => some (.tfeed (dataField v))
  | 0x14 => some (.tfeedbits (dataField v) (nbField v))
  | 0x15 => some .tfin
  | 0x16 => some .tunfin
  | 0x17 => some .tfinx
  | 0x20 => some (.refl (nField v))
  | 0x3F => some .clrerr
  | _ => none

/-- A command word matches a row when (v & mask) == OP (R48). -/
def rowMatches (v : Word) (i : Instr) : Bool :=
  decide (v &&& i.format.mask = i.opcode.zeroExtend 64)

/-- The decoder: the first two tests of R51, in their order. -/
def decode (v : Word) : Except CmdError Instr :=
  match byOpcode v with
  | none => .error .illop
  | some i => if rowMatches v i then .ok i else .error .rsvd

/-- The operand bits of a command, as R53's encoding column writes them. -/
def Instr.operandBits : Instr → Nat
  | .feed data | .tfeed data => data <<< 8
  | .feedbits data nb | .tfeedbits data nb => data <<< 8 ||| nb <<< 16
  | .refl n => n <<< 16
  | .nop | .seed | .resume | .fin | .unfin | .finx | .build | .tseed | .tresume | .tfin
  | .tunfin | .tfinx | .clrerr => 0

/-- The word of a well-formed command (R53, the encoding column). -/
def encode (i : Instr) : Word := BitVec.ofNat 64 (i.opcode.toNat ||| i.operandBits)

/-- What the assembler emits for a command: its word, or nothing where an operand is out of its
range ("The assembler does not emit it", R53). -/
def assembleInstr (i : Instr) : Option Word := if i.wellFormed then some (encode i) else none

/-- A row of spec/opcode_table.json: a word is the row's when its masked bits are the match. -/
structure OpcodeRow where
  mnemonic : String
  matchBits : Word
  maskBits : Word
  deriving DecidableEq, Repr

/-- The opcode table as the spec's machine-readable copy writes it. The decoder does not read
it: that the two agree is a statement. -/
def opcodeRows : List OpcodeRow :=
  [⟨"NOP", 0x00, 0xFFFFFFFFFFFFFFFF⟩, ⟨"SEED", 0x01, 0xFFFFFFFFFFFFFFFF⟩,
   ⟨"RESUME", 0x02, 0xFFFFFFFFFFFFFFFF⟩, ⟨"FEED", 0x03, 0xFFFFFFFFFFFF00FF⟩,
   ⟨"FEEDBITS", 0x04, 0xFFFFFFFFFFF800FF⟩, ⟨"FIN", 0x05, 0xFFFFFFFFFFFFFFFF⟩,
   ⟨"UNFIN", 0x06, 0xFFFFFFFFFFFFFFFF⟩, ⟨"FINX", 0x07, 0xFFFFFFFFFFFFFFFF⟩,
   ⟨"BUILD", 0x08, 0xFFFFFFFFFFFFFFFF⟩, ⟨"TSEED", 0x11, 0xFFFFFFFFFFFFFFFF⟩,
   ⟨"TRESUME", 0x12, 0xFFFFFFFFFFFFFFFF⟩, ⟨"TFEED", 0x13, 0xFFFFFFFFFFFF00FF⟩,
   ⟨"TFEEDBITS", 0x14, 0xFFFFFFFFFFF800FF⟩, ⟨"TFIN", 0x15, 0xFFFFFFFFFFFFFFFF⟩,
   ⟨"TUNFIN", 0x16, 0xFFFFFFFFFFFFFFFF⟩, ⟨"TFINX", 0x17, 0xFFFFFFFFFFFFFFFF⟩,
   ⟨"REFL", 0x20, 0xFFFFFFFFFF80FFFF⟩, ⟨"CLRERR", 0x3F, 0xFFFFFFFFFFFFFFFF⟩]

/-- The rows of the opcode table that a word matches (R48). -/
def matchingRows (v : Word) : List OpcodeRow :=
  opcodeRows.filter fun row => decide (v &&& row.maskBits = row.matchBits)

/-- The word whose bits are w, the bits at and above nbits zero, as the opcode table numbers them.
A command is one 64-bit word and CMD takes it whole (R46), so no byte order enters. -/
def tableWord (nbits w : Nat) : Word := BitVec.ofNat 64 (w % 2 ^ nbits)

/-- The command the decoder reads from a word numbered as the opcode table numbers it. -/
def decodeTableWord (nbits w : Nat) : Option Instr := (decode (tableWord nbits w)).toOption

end Sys2Proof
end

