-- ==== Sys2Proof/Machine/State.lean ====
section
/-! DEFINITION. The state of the machine (R15 of 10_state.md), the host's accesses, the stopping
reasons and the state after reset (R109 of 70_reset_and_hazards.md). -/

namespace Sys2Proof.Machine

/-- Why the machine could stop with a fault. There is no such reason: "No behaviour of the engine
is undefined or unpredictable" (93_implementation_defined.md), it has no trap (R98), and a refused
command is a next state that records its error (R97). Nothing raises a fault (log entry 8). -/
inductive Fault where
  deriving DecidableEq, Repr

/-- Why an instruction has no meaning in this model. -/
inductive Refusal where
  /-- Raised by exec alone, for a command the model leaves out. Safe: it stops where the hardware
  goes on. Every command of the opcode table has its meaning, so nothing raises it. -/
  | notModelled (mnemonic : String)
  deriving DecidableEq, Repr

/-- What the outside can do to the engine (R12, R34, R108): the host's two port operations at a
byte offset, and the platform's reset input between two accesses. -/
inductive Access where
  | read (off : Nat)
  | write (off : Nat) (v : Word)
  | reset
  deriving DecidableEq, Repr

/-- The table RAM (R28): 256 entries of 64 bits, entry 0 first. -/
structure Table where
  entries : List Word
  size : entries.length = Config.tableEntries
  deriving DecidableEq, Repr

/-- The table RAM with every entry zero. -/
def Table.zero : Table := ⟨List.replicate Config.tableEntries 0, List.length_replicate⟩

/-- The machine. The fields from ctrl to errop are the elements of R15, each under its own name;
wmax, pending and reads are the model's own (log entries 1, 2 and 3). -/
structure State where
  /-- CTRL (R17): WIDTH [6:0], REFIN [8], REFOUT [9]; a write stores v & 0x37F. -/
  ctrl : Word
  /-- POLY (R18). -/
  poly : Word
  /-- INIT (R19). -/
  init : Word
  /-- XOROUT (R20). -/
  xorout : Word
  /-- ARG (R21). -/
  arg : Word
  /-- R, read as REM (R24). -/
  r : Word
  /-- RESULT (R25). -/
  result : Word
  /-- TCTRL (R26). -/
  tctrl : Word
  /-- TPOLY (R26). -/
  tpoly : Word
  /-- TINIT (R26). -/
  tinit : Word
  /-- TXOROUT (R26). -/
  txorout : Word
  /-- TVALID, STATUS[0] (R27). -/
  tvalid : Bool
  /-- TABLE[0..255] (R28). -/
  table : Table
  /-- TIDX (R29). -/
  tidx : BitVec 8
  /-- ERR, STATUS[1] (R23). -/
  err : Bool
  /-- ERRCODE, STATUS[7:4] (R23). -/
  errcode : BitVec 4
  /-- ERROP, STATUS[15:8] (R23). -/
  errop : BitVec 8
  /-- The parameter WMAX (R5), which no step changes; CAPS reads it (R31). -/
  wmax : Nat
  /-- The accesses still to be performed, in the order the host issues them (R14, R40). -/
  pending : List Access
  /-- The values PortRead has returned to the host, the newest first (R34). -/
  reads : List Word
  deriving DecidableEq, Repr

/-- The machine right after reset (R109). TABLE is "unspecified" there and "A model may hold TABLE
as any 256 values after reset, or as all zeros" (log entry 5); wmax is the spec's default
(log entry 1); no access is pending and none has been answered. -/
def State.reset : State where
  ctrl := 0
  poly := 0
  init := 0
  xorout := 0
  arg := 0
  r := 0
  result := 0
  tctrl := 0
  tpoly := 0
  tinit := 0
  txorout := 0
  tvalid := false
  table := Table.zero
  tidx := 0
  err := false
  errcode := 0
  errop := 0
  wmax := Config.defaultWmax
  pending := []
  reads := []

/-- Write R. -/
def State.setR (s : State) (v : Word) : State := { s with r := v }

/-- Write RESULT. -/
def State.setResult (s : State) (v : Word) : State := { s with result := v }

/-- Write the error record ERR, ERRCODE, ERROP. -/
def State.setError (s : State) (err : Bool) (code : BitVec 4) (op : BitVec 8) : State :=
  { s with err := err, errcode := code, errop := op }

/-- Write TABLE, copy CFG's registers to TCFG's and set TVALID. -/
def State.setTable (s : State) (t : Table) : State :=
  { s with
    table := t, tctrl := s.ctrl, tpoly := s.poly, tinit := s.init, txorout := s.xorout,
    tvalid := true }

/-- Replace the accesses still to be performed. -/
def State.setPending (s : State) (as : List Access) : State := { s with pending := as }

/-- Answer the host's read with v. -/
def State.pushRead (s : State) (v : Word) : State := { s with reads := v :: s.reads }

end Sys2Proof.Machine
end

