-- ==== Sys2Proof/Machine/Flags.lean ====
section
/-! DEFINITION. STATUS, the engine's only flags (R23 of 10_state.md): the word the host reads, the
recording of the first error and the clearing of the record (R97 of 60_exceptions.md, R86 of
44_dispatch.md). -/

namespace Sys2Proof.Machine

/-- The STATUS word: TVALID | ERR << 1 | ERRCODE << 4 | ERROP << 8 (R23). -/
def statusWord (s : State) : Word :=
  BitVec.ofNat 64
    (s.tvalid.toNat ||| s.err.toNat <<< 1 ||| s.errcode.toNat <<< 4 ||| s.errop.toNat <<< 8)

/-- Record an error: the first one is kept (R97). -/
def recordError (code : BitVec 4) (op : BitVec 8) (s : State) : State :=
  if s.err then s else s.setError true code op

/-- ERR <- 0 ; ERRCODE <- 0 ; ERROP <- 0 (R86). -/
def clearError (s : State) : State := s.setError false 0 0

end Sys2Proof.Machine
end

