-- ==== Sys2Proof/Machine/Operands.lean ====
section
/-! DEFINITION. What a command reads: masks, the fields of CTRL, the two parameter sets and their
effective values (R9 of 00_scope.md, R16, R17 and R26 of 10_state.md). -/

namespace Sys2Proof.Machine

/-- mask(n) = 2^n - 1 (R9). -/
def mask (n : Nat) : Nat := 2 ^ n - 1

/-- WIDTH, CTRL[6:0] (R17). -/
def ctrlWidth (c : Word) : Nat := (c.extractLsb' 0 7).toNat

/-- REFIN, CTRL[8] (R17). -/
def ctrlRefin (c : Word) : Bool := c.getLsbD 8

/-- REFOUT, CTRL[9] (R17). -/
def ctrlRefout (c : Word) : Bool := c.getLsbD 9

/-- A parameter set (R16), its values the non-negative integers of R8. -/
structure ParamSet where
  width : Nat
  poly : Nat
  init : Nat
  xorout : Nat
  refin : Bool
  refout : Bool
  deriving DecidableEq, Repr

/-- The set that four registers hold (R16). -/
def ParamSet.ofRegs (ctrl poly init xorout : Word) : ParamSet where
  width := ctrlWidth ctrl
  poly := poly.toNat
  init := init.toNat
  xorout := xorout.toNat
  refin := ctrlRefin ctrl
  refout := ctrlRefout ctrl

/-- m = mask(P.W) (R16). -/
def ParamSet.m (P : ParamSet) : Nat := mask P.width

/-- poly_e (R16). -/
def ParamSet.polyE (P : ParamSet) : Nat := P.poly &&& P.m

/-- init_e (R16). -/
def ParamSet.initE (P : ParamSet) : Nat := P.init &&& P.m

/-- xorout_e (R16). -/
def ParamSet.xoroutE (P : ParamSet) : Nat := P.xorout &&& P.m

/-- CFG, the live set (R16). -/
def State.cfg (s : State) : ParamSet := ParamSet.ofRegs s.ctrl s.poly s.init s.xorout

/-- TCFG, the table's stored set (R16, R26). -/
def State.tcfg (s : State) : ParamSet := ParamSet.ofRegs s.tctrl s.tpoly s.tinit s.txorout

/-- TABLE[i] (R9, R28); every index the rules form is less than 256. -/
def Table.entry (t : Table) (i : Nat) : Nat := (t.entries.getD i 0).toNat

/-- The table RAM whose entry b is f b, for b = 0 .. 255. -/
def Table.tabulate (f : Nat → Nat) : Table :=
  ⟨(List.range Config.tableEntries).map fun b => BitVec.ofNat 64 (f b), by simp⟩

end Sys2Proof.Machine
end

