-- ==== Sys2Proof/Machine/Ops.lean ====
section
/-! DEFINITION. The shared operations: refusing a command (the engine's one exception mechanism)
and the return from it, the checks a command makes on its parameter set, writing a datapath result,
the register port and the reset input. -/

namespace Sys2Proof.Machine

/-- raise CmdError(code) for a command whose CMD[7:0] is op (R97): the first error is recorded, and
the command performs nothing else. No mode, stack or control changes: there is no trap (R98). -/
def cmdError (e : CmdError) (op : BitVec 8) (s : State) : State := recordError e.code op s

/-- The only return from an error (R99): clear the record. -/
def returnFromError (s : State) : State := clearError s

/-- The check of a command on the live set: refused with code 3 when CTRL.WIDTH > WMAX (R51, R95),
otherwise it has its effect. -/
def onCfg (i : Instr) (s : State) (effect : ParamSet → State) :
    Host.Outcome State Fault Refusal :=
  if s.wmax < s.cfg.width then .next (cmdError .width i.opcode s) else .next (effect s.cfg)

/-- The check of a command on the table's set: refused with code 4 while TVALID = 0 (R51, R95). -/
def onTcfg (i : Instr) (s : State) (effect : ParamSet → State) :
    Host.Outcome State Fault Refusal :=
  if s.tvalid then .next (effect s.tcfg) else .next (cmdError .notable i.opcode s)

/-- R <- v. Every rule that writes R gives v < 2^W with W ≤ WMAX ≤ 64 (R24), so 64 bits hold it. -/
def writeR (v : Nat) (s : State) : State := s.setR (BitVec.ofNat 64 v)

/-- RESULT <- v, a value below 2^64 in the same way (R25). -/
def writeResult (v : Nat) (s : State) : State := s.setResult (BitVec.ofNat 64 v)

/-- The sixteen registers of the port (R35 of 20_memory.md). -/
inductive PortReg where
  | ctrl | poly | init | xorout | arg | cmd | status | rem
  | result | tctrl | tpoly | tinit | txorout | tidx | tdata | caps
  deriving DecidableEq, Repr

/-- The register's byte offset (R35). -/
def PortReg.offset : PortReg → Nat
  | .ctrl => 0x00
  | .poly => 0x08
  | .init => 0x10
  | .xorout => 0x18
  | .arg => 0x20
  | .cmd => 0x28
  | .status => 0x30
  | .rem => 0x38
  | .result => 0x40
  | .tctrl => 0x48
  | .tpoly => 0x50
  | .tinit => 0x58
  | .txorout => 0x60
  | .tidx => 0x68
  | .tdata => 0x70
  | .caps => 0x78

/-- The register a byte offset reaches; none for an unmapped access (R34, R35). -/
def PortReg.ofOffset : Nat → Option PortReg
  | 0x00 => some .ctrl
  | 0x08 => some .poly
  | 0x10 => some .init
  | 0x18 => some .xorout
  | 0x20 => some .arg
  | 0x28 => some .cmd
  | 0x30 => some .status
  | 0x38 => some .rem
  | 0x40 => some .result
  | 0x48 => some .tctrl
  | 0x50 => some .tpoly
  | 0x58 => some .tinit
  | 0x60 => some .txorout
  | 0x68 => some .tidx
  | 0x70 => some .tdata
  | 0x78 => some .caps
  | _ => none

/-- The host-read column of R35. -/
def readReg (reg : PortReg) (s : State) : Word :=
  match reg with
  | .ctrl => s.ctrl
  | .poly => s.poly
  | .init => s.init
  | .xorout => s.xorout
  | .arg => s.arg
  | .cmd => 0
  | .status => statusWord s
  | .rem => s.r
  | .result => s.result
  | .tctrl => s.tctrl
  | .tpoly => s.tpoly
  | .tinit => s.tinit
  | .txorout => s.txorout
  | .tidx => s.tidx.zeroExtend 64
  | .tdata => if s.tvalid then BitVec.ofNat 64 (s.table.entry s.tidx.toNat) else 0
  | .caps => BitVec.ofNat 64 s.wmax

/-- The host-write column of R35 for every register but CMD, whose write runs a command
(Machine/Port.lean): a storage register takes the value, a read-only one ignores it (R36). -/
def writeReg (reg : PortReg) (v : Word) (s : State) : State :=
  match reg with
  | .ctrl => { s with ctrl := v &&& 0x37F }
  | .poly => { s with poly := v }
  | .init => { s with init := v }
  | .xorout => { s with xorout := v }
  | .arg => { s with arg := v }
  | .tidx => { s with tidx := v.setWidth 8 }
  | .cmd | .status | .rem | .result | .tctrl | .tpoly | .tinit | .txorout | .tdata | .caps => s

/-- PortRead(off) (R34): the register's value, 0 for an unmapped access. -/
def portRead (off : Nat) (s : State) : Word :=
  match PortReg.ofOffset off with
  | some reg => readReg reg s
  | none => 0

/-- The reset input (R108): every element of R15 takes its value of R109. The parameter WMAX, the
accesses still to come and the values already returned are not the engine's elements. -/
def resetEngine (s : State) : State :=
  { State.reset with wmax := s.wmax, pending := s.pending, reads := s.reads }

end Sys2Proof.Machine
end

