-- ==== Sys2Proof/Machine/Reflect.lean ====
section
/-! DEFINITION. The reflection unit (40_reflect.md) and REFL. -/

namespace Sys2Proof.Machine

/-- Reflect(v, n) (R55): the loop out = (out << 1) | v[i] for i = 0 .. n-1, started from 0. -/
def reflect (v : Nat) : Nat → Nat
  | 0 => 0
  | n + 1 => (reflect v n) <<< 1 ||| (v.testBit n).toNat

/-- REFL (R58): refused with code 5 when N > WMAX, otherwise RESULT <- Reflect(ARG, N). -/
def execRefl (n : Nat) (s : State) : Host.Outcome State Fault Refusal :=
  if s.wmax < n then .next (cmdError .range (Instr.refl n).opcode s)
  else .next (writeResult (reflect s.arg.toNat n) s)

end Sys2Proof.Machine
end

