-- ==== Sys2Proof/Machine/Bitwise.lean ====
section
/-! DEFINITION. The bit-serial datapath (41_bitwise.md) and FEED. -/

namespace Sys2Proof.Machine

/-- One inner step of the reflected case: "shift remainder right and XOR with the reflected
polynomial" when bit 0 is set, "else shift right only" (R59, case 1). -/
def stepRight (pr x : Nat) : Nat := if x.testBit 0 then (x >>> 1) ^^^ pr else x >>> 1

/-- One inner step of the other two cases: "shift left and XOR with polynomial" when bit top is
set, "else shift left only" (R59, cases 2 and 3). -/
def stepLeft (top p x : Nat) : Nat := if x.testBit top then (x <<< 1) ^^^ p else x <<< 1

/-- BitFold(P, r, b, n) (R59): fold the first n bits of b, in processing order (R60), into r.
Intermediates are unbounded; the masks are those the rule writes. -/
def bitFold (P : ParamSet) (r b n : Nat) : Nat :=
  let W := P.width
  let m := P.m
  let poly := P.polyE
  let r := r &&& m
  if P.refin then
    let b := b &&& mask n
    let x := r ^^^ b
    (stepRight (reflect poly W))^[n] x &&& m
  else
    let b := b &&& ((mask n <<< (8 - n)) &&& 0xFF)
    if 8 ≤ W then
      let x := r ^^^ (b <<< (W - 8))
      (stepLeft (W - 1) poly)^[n] x &&& m
    else
      let s := 8 - W
      let x := (r <<< s) ^^^ b
      ((stepLeft 7 (poly <<< s))^[n] x >>> s) &&& m

/-- FEED (R63): R <- BitFold(CFG, R, DATA, 8). -/
def execFeed (data : Nat) (s : State) : Host.Outcome State Fault Refusal :=
  onCfg (.feed data) s fun P => writeR (bitFold P s.r.toNat data Config.bitsPerByte) s

end Sys2Proof.Machine
end

