-- ==== Sys2Proof/Machine/Finalize.lean ====
section
/-! DEFINITION. The finalize unit (43_finalize.md) and its six commands. Conflict C2 of
90_conflicts.md settles the reflection condition: reflectInput ≠ reflectOutput. -/

namespace Sys2Proof.Machine

/-- Finalize(P, r) (R70). -/
def finalize (P : ParamSet) (r : Nat) : Nat :=
  let W := P.width
  let m := mask W
  let t := r &&& m
  let t := if P.refin != P.refout then reflect t W else t
  (t ^^^ (P.xorout &&& m)) &&& m

/-- UndoFinalize(P, c) (R71). -/
def undoFinalize (P : ParamSet) (c : Nat) : Nat :=
  let W := P.width
  let m := mask W
  let t := (c &&& m) ^^^ (P.xorout &&& m)
  if P.refin != P.refout then reflect t W else t

/-- FIN (R73): RESULT <- Finalize(CFG, R). -/
def execFin (s : State) : Host.Outcome State Fault Refusal :=
  onCfg .fin s fun P => writeResult (finalize P s.r.toNat) s

/-- UNFIN (R74): RESULT <- UndoFinalize(CFG, ARG). -/
def execUnfin (s : State) : Host.Outcome State Fault Refusal :=
  onCfg .unfin s fun P => writeResult (undoFinalize P s.arg.toNat) s

/-- FINX (R75): RESULT <- Finalize(CFG, ARG). -/
def execFinx (s : State) : Host.Outcome State Fault Refusal :=
  onCfg .finx s fun P => writeResult (finalize P s.arg.toNat) s

/-- TFIN (R76): RESULT <- Finalize(TCFG, R). -/
def execTfin (s : State) : Host.Outcome State Fault Refusal :=
  onTcfg .tfin s fun P => writeResult (finalize P s.r.toNat) s

/-- TUNFIN (R77): RESULT <- UndoFinalize(TCFG, ARG). -/
def execTunfin (s : State) : Host.Outcome State Fault Refusal :=
  onTcfg .tunfin s fun P => writeResult (undoFinalize P s.arg.toNat) s

/-- TFINX (R78): RESULT <- Finalize(TCFG, ARG). -/
def execTfinx (s : State) : Host.Outcome State Fault Refusal :=
  onTcfg .tfinx s fun P => writeResult (finalize P s.arg.toNat) s

end Sys2Proof.Machine
end

