-- ==== Sys2Proof/Machine/Sequencer.lean ====
section
/-! DEFINITION. The command sequencer (44_dispatch.md): seeding, resuming, bit-granular input,
NOP and CLRERR. -/

namespace Sys2Proof.Machine

/-- SEED (R79): R <- INIT & mask(CTRL.WIDTH), unreflected in both modes. -/
def execSeed (s : State) : Host.Outcome State Fault Refusal :=
  onCfg .seed s fun P => writeR P.initE s

/-- TSEED (R80): R <- TINIT & mask(TCTRL.WIDTH). -/
def execTseed (s : State) : Host.Outcome State Fault Refusal :=
  onTcfg .tseed s fun P => writeR P.initE s

/-- RESUME (R81): R <- UndoFinalize(CFG, ARG). -/
def execResume (s : State) : Host.Outcome State Fault Refusal :=
  onCfg .resume s fun P => writeR (undoFinalize P s.arg.toNat) s

/-- TRESUME (R82): R <- UndoFinalize(TCFG, ARG). -/
def execTresume (s : State) : Host.Outcome State Fault Refusal :=
  onTcfg .tresume s fun P => writeR (undoFinalize P s.arg.toNat) s

/-- FEEDBITS (R83): R <- BitFold(CFG, R, DATA, NB). -/
def execFeedbits (data nb : Nat) (s : State) : Host.Outcome State Fault Refusal :=
  onCfg (.feedbits data nb) s fun P => writeR (bitFold P s.r.toNat data nb) s

/-- TFEEDBITS (R84): R <- BitFold(TCFG, R, DATA, NB); TABLE is not read. -/
def execTfeedbits (data nb : Nat) (s : State) : Host.Outcome State Fault Refusal :=
  onTcfg (.tfeedbits data nb) s fun P => writeR (bitFold P s.r.toNat data nb) s

/-- NOP (R85): no state change. -/
def execNop (s : State) : Host.Outcome State Fault Refusal := .next s

/-- CLRERR (R86): clear the error record. -/
def execClrerr (s : State) : Host.Outcome State Fault Refusal := .next (returnFromError s)

end Sys2Proof.Machine
end

