-- ==== Sys2Proof/Machine/TableUnit.lean ====
section
/-! DEFINITION. The table builder and the table datapath (42_table.md): BUILD and TFEED. -/

namespace Sys2Proof.Machine

/-- TableEntry(P, b) (R64). -/
def tableEntry (P : ParamSet) (b : Nat) : Nat :=
  let e := bitFold P 0 b 8 &&& mask P.width
  if P.refin = false ∧ P.width < 8 then e <<< (8 - P.width) else e

/-- The 256 entries that BUILD writes for a parameter set (R65). -/
def buildTable (P : ParamSet) : Table := Table.tabulate (tableEntry P)

/-- TableFold(TP, r, b) (R67): one lookup folds one byte. -/
def tableFold (TP : ParamSet) (t : Table) (r b : Nat) : Nat :=
  let W := TP.width
  let m := mask W
  let r := r &&& m
  if TP.refin then
    ((r >>> 8) ^^^ t.entry ((r ^^^ b) &&& 0xFF)) &&& m
  else if 8 ≤ W then
    ((r <<< 8) ^^^ t.entry (((r >>> (W - 8)) ^^^ b) &&& 0xFF)) &&& m
  else
    let s := 8 - W
    let x := r <<< s
    let x := t.entry ((x ^^^ b) &&& 0xFF)
    (x >>> s) &&& m

/-- BUILD (R65): TABLE[b] <- TableEntry(CFG, b) for every b, TCFG <- CFG bit for bit, TVALID <- 1,
all at once (R52). -/
def execBuild (s : State) : Host.Outcome State Fault Refusal :=
  onCfg .build s fun P => s.setTable (buildTable P)

/-- TFEED (R69): R <- TableFold(TCFG, R, DATA). -/
def execTfeed (data : Nat) (s : State) : Host.Outcome State Fault Refusal :=
  onTcfg (.tfeed data) s fun P => writeR (tableFold P s.table s.r.toNat data) s

end Sys2Proof.Machine
end

