-- ==== Sys2Proof/Machine/Dispatch.lean ====
section
/-! DEFINITION. One arm per command: the opmap of R51. -/

namespace Sys2Proof.Machine

def exec (i : Instr) (s : State) : Host.Outcome State Fault Refusal :=
  match i with
  | .nop => Sys2Proof.Machine.execNop s
  | .seed => Sys2Proof.Machine.execSeed s
  | .resume => Sys2Proof.Machine.execResume s
  | .feed data => Sys2Proof.Machine.execFeed data s
  | .feedbits data nb => Sys2Proof.Machine.execFeedbits data nb s
  | .fin => Sys2Proof.Machine.execFin s
  | .unfin => Sys2Proof.Machine.execUnfin s
  | .finx => Sys2Proof.Machine.execFinx s
  | .build => Sys2Proof.Machine.execBuild s
  | .tseed => Sys2Proof.Machine.execTseed s
  | .tresume => Sys2Proof.Machine.execTresume s
  | .tfeed data => Sys2Proof.Machine.execTfeed data s
  | .tfeedbits data nb => Sys2Proof.Machine.execTfeedbits data nb s
  | .tfin => Sys2Proof.Machine.execTfin s
  | .tunfin => Sys2Proof.Machine.execTunfin s
  | .tfinx => Sys2Proof.Machine.execTfinx s
  | .refl n => Sys2Proof.Machine.execRefl n s
  | .clrerr => Sys2Proof.Machine.execClrerr s

end Sys2Proof.Machine
end

