-- ==== Sys2Proof/Machine/Port.lean ====
section
/-! DEFINITION. Performing one access: Execute(v) (R51 of 30_encoding.md), PortWrite, PortRead and
reset (R34 of 20_memory.md, R108 of 70_reset_and_hazards.md), and the access that carries a
command word. -/

namespace Sys2Proof.Machine

/-- Execute(v) (R51): refuse a word that does not decode, otherwise perform its command. ERROP is
CMD[7:0] (R97). -/
def execute (v : Word) (s : State) : Host.Outcome State Fault Refusal :=
  match decode v with
  | .error e => .next (cmdError e (opField v) s)
  | .ok i => exec i s

/-- PortWrite(off, v) (R34, R35): a write to CMD runs a command, a write to another register is
writeReg's, an unmapped one has no effect. -/
def portWrite (off : Nat) (v : Word) (s : State) : Host.Outcome State Fault Refusal :=
  match PortReg.ofOffset off with
  | some .cmd => execute v s
  | some reg => .next (writeReg reg v s)
  | none => .next s

/-- One access, performed whole before the next (R39, R40). -/
def perform (a : Access) (s : State) : Host.Outcome State Fault Refusal :=
  match a with
  | .read off => .next (s.pushRead (portRead off s))
  | .write off v => portWrite off v s
  | .reset => .next (resetEngine s)

/-- Accesses performed one after the other, in issue order (R40). -/
def performAll : List Access → State → Host.Outcome State Fault Refusal
  | [], s => .next s
  | a :: as, s =>
    match perform a s with
    | .next t => performAll as t
    | .fault f => .fault f
    | .refused f => .refused f

/-- The access that issues a command word (R22). -/
def cmdAccess (v : Word) : Access := .write PortReg.cmd.offset v

/-- One step: perform the first pending access; with none the engine is idle and keeps its state
(R12, R107). -/
def stepPending (s : State) : Host.Outcome State Fault Refusal :=
  match s.pending with
  | [] => .next s
  | a :: rest => perform a (s.setPending rest)

end Sys2Proof.Machine
end

