-- ==== Sys2Proof/Machine/Step.lean ====
section
/-! DEFINITION. The step of the machine and where the next command is found. -/

namespace Sys2Proof.Machine

/-- One step of the machine: Machine/Port.lean's stepPending. -/
def step (s : State) : Host.Outcome State Fault Refusal := stepPending s

/-- s with the command whose bits are w issued next: the engine fetches nothing (R14), the host's
next access is the write of the command word to CMD (R22, R51; log entry 2). -/
def State.withFetchWord (s : State) (nbits w : Nat) : State :=
  s.setPending (cmdAccess (tableWord nbits w) :: s.pending)

end Sys2Proof.Machine
end

