-- ==== Sys2Proof/Machine/Assembler.lean ====
section
/-! DEFINITION. The host's programs (R53, R54 of 30_encoding.md): lines, what each assembles to,
the text of a line, and the pseudo-instructions with their expansions. -/

namespace Sys2Proof.Machine

/-- A host line (R53): one access. -/
inductive Line where
  | wr (reg : PortReg) (v : Nat)
  | rd (reg : PortReg)
  | cmd (i : Instr)
  deriving DecidableEq, Repr

/-- The access a line assembles to; none for an assembly error, an operand out of its range (R53). -/
def Line.access : Line → Option Access
  | .wr reg v => if v < 2 ^ 64 then some (.write reg.offset (BitVec.ofNat 64 v)) else none
  | .rd reg => some (.read reg.offset)
  | .cmd i => (assembleInstr i).map cmdAccess

/-- A program's accesses, in order; none where a line is an assembly error. -/
def assemble : List Line → Option (List Access)
  | [] => some []
  | l :: ls =>
    match l.access, assemble ls with
    | some a, some as => some (a :: as)
    | _, _ => none

/-- s with a program's accesses issued next: how the host's program reaches the engine (R14). -/
def State.withProgram (s : State) (as : List Access) : State := s.setPending (as ++ s.pending)

/-- The accesses that issue commands, one for each. -/
def cmds (is : List Instr) : List Access := is.map fun i => cmdAccess (encode i)

/-- The commands of a call (R88): those that seed, one for each byte in order, those that end it. -/
def callCmds (seeding : List Instr) (byte : Nat → Instr) (bytes : List Nat)
    (ending : List Instr) : List Access :=
  cmds (seeding ++ bytes.map byte ++ ending)

/-! The pseudo-instructions (R54). -/

/-- The pseudo-instructions of R54; a prior CRC is absent where the call has none. -/
inductive Pseudo where
  | config (width poly init xorout refin refout : Nat)
  | maketable
  | feedbuf (bytes : List Nat)
  | tfeedbuf (bytes : List Nat)
  | feedbitsbuf (bytes : List Nat) (nbits : Nat)
  | tfeedbitsbuf (bytes : List Nat) (nbits : Nat)
  | calc (bytes : List Nat)
  | calcprior (bytes : List Nat) (crc : Nat)
  | tcalc (bytes : List Nat)
  | tcalcprior (bytes : List Nat) (crc : Nat)
  | calcbits (bytes : List Nat) (nbits : Nat) (crc : Option Nat)
  | tcalcbits (bytes : List Nat) (nbits : Nat) (crc : Option Nat)
  | reflect (v n : Nat)
  deriving DecidableEq, Repr

/-- A string operand stands for its ASCII bytes in order (R54). DESIGN CHOICE (log entry 16): R54
does not say what a character outside ASCII does; here it yields its code point, which is a byte
for 128 to 255 and an operand out of its range, so an assembly error, above 255. -/
def asciiBytes (text : List Char) : List Nat := text.map Char.toNat

/-- One FEED for each byte, in order (R54). -/
def feedLines (bytes : List Nat) : List Line := bytes.map fun b => .cmd (.feed b)

/-- One TFEED for each byte, in order (R54). -/
def tfeedLines (bytes : List Nat) : List Line := bytes.map fun b => .cmd (.tfeed b)

/-- The trailing-bits line of feedbitsbuf: none where nbits is a whole number of bytes, an assembly
error (the outer none) where the next byte is missing (log entry 13). -/
def trailingLines (bits : Nat → Nat → Instr) (bytes : List Nat) (nbits : Nat) :
    Option (List Line) :=
  if nbits % 8 = 0 then some []
  else bytes[nbits / 8]?.map fun b => [.cmd (bits b (nbits % 8))]

/-- feedbitsbuf and tfeedbitsbuf (R54): floor(nbits / 8) whole bytes, then the trailing bits. DESIGN
CHOICE (log entry 18): R54 does not say what holds of an element after those the bits need; here it
is put in no line, so it is not checked to be a byte. -/
def bitsLines (byte : Nat → Instr) (bits : Nat → Nat → Instr) (bytes : List Nat) (nbits : Nat) :
    Option (List Line) :=
  if bytes.length < nbits / 8 then none
  else
    (trailingLines bits bytes nbits).map fun rest =>
      (bytes.take (nbits / 8)).map (fun b => Line.cmd (byte b)) ++ rest

/-- The seeding lines of a call: the initial value, or the prior CRC through ARG (R54). -/
def seedLines (fresh prior : Instr) : Option Nat → List Line
  | none => [.cmd fresh]
  | some crc => [.wr .arg crc, .cmd prior]

/-- The expansion of a pseudo-instruction (R54); none for an assembly error. -/
def Pseudo.expand : Pseudo → Option (List Line)
  | .config width poly init xorout refin refout =>
    some [.wr .ctrl (width ||| refin <<< 8 ||| refout <<< 9), .wr .poly poly, .wr .init init,
      .wr .xorout xorout]
  | .maketable => some [.cmd .build]
  | .feedbuf bytes => some (feedLines bytes)
  | .tfeedbuf bytes => some (tfeedLines bytes)
  | .feedbitsbuf bytes nbits => bitsLines .feed .feedbits bytes nbits
  | .tfeedbitsbuf bytes nbits => bitsLines .tfeed .tfeedbits bytes nbits
  | .calc bytes => some (seedLines .seed .resume none ++ feedLines bytes ++ [.cmd .fin])
  | .calcprior bytes crc =>
    some (seedLines .seed .resume (some crc) ++ feedLines bytes ++ [.cmd .fin])
  | .tcalc bytes => some (seedLines .tseed .tresume none ++ tfeedLines bytes ++ [.cmd .tfin])
  | .tcalcprior bytes crc =>
    some (seedLines .tseed .tresume (some crc) ++ tfeedLines bytes ++ [.cmd .tfin])
  | .calcbits bytes nbits crc =>
    (bitsLines .feed .feedbits bytes nbits).map fun ls =>
      seedLines .seed .resume crc ++ ls ++ [.cmd .fin]
  | .tcalcbits bytes nbits crc =>
    (bitsLines .tfeed .tfeedbits bytes nbits).map fun ls =>
      seedLines .tseed .tresume crc ++ ls ++ [.cmd .tfin]
  | .reflect v n => some [.wr .arg v, .cmd (.refl n)]

/-- The accesses of a pseudo-instruction. -/
def Pseudo.accesses (p : Pseudo) : Option (List Access) :=
  match p.expand with
  | some ls => assemble ls
  | none => none

/-! The text of a line (R53, R54). -/

/-- A token of a line: a word in lower case (log entry 15), a string as written, or a comma. -/
inductive Token where
  | word (cs : List Char)
  | text (cs : List Char)
  | comma
  deriving DecidableEq, Repr

/-- Where the reader of a line stands: in a word, which may be empty, or in a string, with the
letters read so far, the last first. -/
inductive Scan where
  | word (acc : List Char)
  | text (acc : List Char)
  deriving DecidableEq, Repr

/-- The token of the letters read so far. -/
def flushWord : List Char → List Token
  | [] => []
  | cs => [.word cs.reverse]

/-- The tokens of a line: a comment starts with a semicolon (R53), a string stands between double
quotes (R54); none where a string has no end. DESIGN CHOICE (log entry 15): R53 makes mnemonics and
register names case-insensitive and says nothing of other words; here every word is folded to lower
case, so wr, rd, cmd, the names of pseudo-instructions, the prefix 0x and hexadecimal digits are
read in either case. DESIGN CHOICE (log entry 16): a string has no escapes, so it holds no double
quote, and a semicolon in it is one of its characters. DESIGN CHOICE (log entry 13): a double quote
ends the word before it and a string ends at its closing quote, with or without a space there, so
calc"12" is read as calc "12"; only a space and a tabulator separate words. -/
def tokens : Scan → List Char → Option (List Token)
  | .word acc, [] => some (flushWord acc)
  | .text _, [] => none
  | .text acc, c :: cs =>
    if c.toNat = 34 then (tokens (.word []) cs).map fun ts => .text acc.reverse :: ts
    else tokens (.text (c :: acc)) cs
  | .word acc, c :: cs =>
    if c = ';' then some (flushWord acc)
    else if c.toNat = 34 then (tokens (.text []) cs).map fun ts => flushWord acc ++ ts
    else if c = ' ' ∨ c = '\t' then (tokens (.word []) cs).map fun ts => flushWord acc ++ ts
    else if c = ',' then (tokens (.word []) cs).map fun ts => flushWord acc ++ .comma :: ts
    else tokens (.word (c.toLower :: acc)) cs

/-- A digit's value below 16; letters are lower case here (log entry 15). -/
def digitValue (c : Char) : Option Nat :=
  if '0' ≤ c ∧ c ≤ '9' then some (c.toNat - 48)
  else if 'a' ≤ c ∧ c ≤ 'f' then some (c.toNat - 87)
  else none

/-- Digits in a base, the first the most significant, added to what stands before them. -/
def digits (base : Nat) : Nat → List Char → Option Nat
  | acc, [] => some acc
  | acc, c :: cs =>
    match digitValue c with
    | some d => if d < base then digits base (acc * base + d) cs else none
    | none => none

/-- An unsigned number, decimal or 0x hexadecimal (R53); a word that was written 0X is read the same
(log entry 15). -/
def number : List Char → Option Nat
  | [] => none
  | ['0', 'x'] => none
  | '0' :: 'x' :: cs => digits 16 0 cs
  | cs => digits 10 0 cs

/-- An operand: a number, or a string that stands for bytes. -/
inductive Operand where
  | num (n : Nat)
  | text (cs : List Char)
  deriving DecidableEq, Repr

/-- Operands separated by commas; none for a comma with no operand on either side (log entry 17). -/
def operands : List Token → Option (List Operand)
  | [] => some []
  | [.word w] => (number w).map fun n => [.num n]
  | [.text cs] => some [.text cs]
  | .word w :: .comma :: ts =>
    match ts.isEmpty, number w, operands ts with
    | false, some n, some os => some (.num n :: os)
    | _, _, _ => none
  | .text cs :: .comma :: ts =>
    match ts.isEmpty, operands ts with
    | false, some os => some (.text cs :: os)
    | _, _ => none
  | _ => none

/-- Operands that are all numbers. -/
def numbers : List Operand → Option (List Nat)
  | [] => some []
  | .num n :: os => (numbers os).map fun ns => n :: ns
  | .text _ :: _ => none

/-- The bytes and the k numbers after them; the bytes are a string or a list (R54). DESIGN CHOICE (log
entry 17): R54 does not say how an empty list is written; here it is written as nothing, without a
comma after it, so calcprior 5 has no bytes and the number 5, and feedbuf alone has no bytes. -/
def bytesThen (k : Nat) : List Operand → Option (List Nat × List Nat)
  | .text cs :: os =>
    match numbers os with
    | some ns => if ns.length = k then some (asciiBytes cs, ns) else none
    | none => none
  | os =>
    match numbers os with
    | some ns =>
      if ns.length < k then none else some (ns.take (ns.length - k), ns.drop (ns.length - k))
    | none => none

/-- The entry of a name list that has this name, in lower case. -/
def named {α : Type} (list : List (String × α)) (cs : List Char) : Option α :=
  list.findSome? fun p => if p.1.toList = cs then some p.2 else none

/-- The registers by name (R35). -/
def registerNamed : List Char → Option PortReg :=
  named [("ctrl", .ctrl), ("poly", .poly), ("init", .init), ("xorout", .xorout), ("arg", .arg),
    ("cmd", .cmd), ("status", .status), ("rem", .rem), ("result", .result), ("tctrl", .tctrl),
    ("tpoly", .tpoly), ("tinit", .tinit), ("txorout", .txorout), ("tidx", .tidx),
    ("tdata", .tdata), ("caps", .caps)]

/-- A command by its name and operands (R53's table). -/
def commandNamed (cs : List Char) : List Nat → Option Instr
  | [] =>
    named [("nop", .nop), ("seed", .seed), ("resume", .resume), ("fin", .fin), ("unfin", .unfin),
      ("finx", .finx), ("build", .build), ("tseed", .tseed), ("tresume", .tresume),
      ("tfin", .tfin), ("tunfin", .tunfin), ("tfinx", .tfinx), ("clrerr", .clrerr)] cs
  | [x] => named [("feed", .feed x), ("tfeed", .tfeed x), ("refl", .refl x)] cs
  | [x, y] => named [("feedbits", .feedbits x y), ("tfeedbits", .tfeedbits x y)] cs
  | _ => none

/-- A pseudo-instruction whose operands are bytes alone. -/
def bytesPseudo (cs : List Char) (bytes : List Nat) : Option Pseudo :=
  named [("feedbuf", .feedbuf bytes), ("tfeedbuf", .tfeedbuf bytes), ("calc", .calc bytes),
    ("tcalc", .tcalc bytes)] cs

/-- A pseudo-instruction whose operands are bytes and one number. -/
def bytesNumberPseudo (cs : List Char) (bytes : List Nat) (n : Nat) : Option Pseudo :=
  named [("feedbitsbuf", .feedbitsbuf bytes n), ("tfeedbitsbuf", .tfeedbitsbuf bytes n),
    ("calcprior", .calcprior bytes n), ("tcalcprior", .tcalcprior bytes n)] cs

/-- The pseudo-instructions whose operands are not bytes: config, maketable and reflect. -/
def plainPseudo (cs : List Char) : List Operand → Option Pseudo
  | [] => named [("maketable", .maketable)] cs
  | [.num v, .num n] => named [("reflect", .reflect v n)] cs
  | [.num w, .num p, .num i, .num x, .num ri, .num ro] =>
    named [("config", .config w p i x ri ro)] cs
  | _ => none

/-- calcbits or tcalcbits by its name, its bytes and the numbers after them: nbits, or nbits and the
prior CRC (R54). -/
def bitsCall (cs : List Char) : List Nat × List Nat → Option Pseudo
  | (bytes, [n]) =>
    named [("calcbits", .calcbits bytes n none), ("tcalcbits", .tcalcbits bytes n none)] cs
  | (bytes, [n, crc]) =>
    named [("calcbits", .calcbits bytes n (some crc)),
      ("tcalcbits", .tcalcbits bytes n (some crc))] cs
  | _ => none

/-- The bytes are just those that hold the bits, none to spare. -/
def holdsJust : List Nat × List Nat → Bool
  | (bytes, n :: _) => bytes.length == (n + 7) / 8
  | _ => false

/-- calcbits and tcalcbits (R54): the bytes, a string or a list, then nbits and an optional prior CRC.
Operands that are all numbers may be read without the prior CRC or with it. DESIGN CHOICE (log
entry 13): of the readings that assemble, the first whose list is just the bytes that hold nbits
bits is taken, else the first; the reading without a prior CRC comes first. -/
def bitsPseudo (cs : List Char) (os : List Operand) : Option Pseudo :=
  let readings := ((bytesThen 1 os).toList ++ (bytesThen 2 os).toList).filter fun p =>
    ((bitsCall cs p).bind Pseudo.accesses).isSome
  (readings.find? holdsJust <|> readings.head?).bind (bitsCall cs)

/-- A pseudo-instruction by its name and operands (R54's table). -/
def pseudoNamed (cs : List Char) (os : List Operand) : Option Pseudo :=
  plainPseudo cs os <|> bitsPseudo cs os <|>
    ((bytesThen 0 os).bind fun p => bytesPseudo cs p.1) <|>
    ((bytesThen 1 os).bind fun p => p.2.head?.bind fun n => bytesNumberPseudo cs p.1 n)

/-- A tokenised line; none for an assembly error. A blank or comment line is no access. -/
def lineOf : List Token → Option (List Line)
  | [] => some []
  | [.word ['w', 'r'], .word reg, .comma, .word v] =>
    match registerNamed reg, number v with
    | some reg, some v => some [.wr reg v]
    | _, _ => none
  | [.word ['r', 'd'], .word reg] => (registerNamed reg).map fun reg => [.rd reg]
  | .word ['c', 'm', 'd'] :: .word name :: ts =>
    (((operands ts).bind numbers).bind (commandNamed name)).map fun i => [.cmd i]
  | .word name :: ts => ((operands ts).bind (pseudoNamed name)).bind Pseudo.expand
  | _ => none

/-- The lines a text stands for (R53, R54), with the choices of log entries 13 and 15 to 17. -/
def parseLine (text : List Char) : Option (List Line) := (tokens (.word []) text).bind lineOf

end Sys2Proof.Machine
end

