-- ==== Sys2Proof/Machine/Derived.lean ====
section
/-! DEFINITION. The second forms of the datapath that the spec itself gives (R59's branchless step,
R61's per-bit form, R62's unmasked form, R87's fold over a buffer). No meaning calls them: they are
what the statements compare the meanings with. -/

namespace Sys2Proof.Machine

/-- The branchless inner step of case 1, x = shift(x) ^ (testBit * poly) (R59, R10). -/
def stepRightBranchless (pr x : Nat) : Nat := (x >>> 1) ^^^ ((x.testBit 0).toNat * pr)

/-- The branchless inner step of cases 2 and 3 (R59, R10). -/
def stepLeftBranchless (top p x : Nat) : Nat := (x <<< 1) ^^^ ((x.testBit top).toNat * p)

/-- One step of the per-bit form with the data bit d (R61). -/
def perBitStep (P : ParamSet) (x : Nat) (d : Bool) : Nat :=
  if P.refin then
    (x >>> 1) ^^^ (if (x.testBit 0 ^^ d) = true then reflect P.polyE P.width else 0)
  else
    ((x <<< 1) &&& P.m) ^^^ (if (x.testBit (P.width - 1) ^^ d) = true then P.polyE else 0)

/-- The significant bits of a byte in processing order (R60): b[0], b[1], ... when
reflectInput = 1, b[7], b[6], ... when reflectInput = 0. -/
def significantBits (P : ParamSet) (b n : Nat) : List Bool :=
  (List.range n).map fun k => if P.refin then b.testBit k else b.testBit (7 - k)

/-- The per-bit form of the fold (R61). -/
def perBitFold (P : ParamSet) (r b n : Nat) : Nat :=
  (significantBits P b n).foldl (perBitStep P) (r &&& P.m)

/-- The source's algorithm with no mask on the remainder, on entry or on return (R62). -/
def unmaskedFold (P : ParamSet) (r b n : Nat) : Nat :=
  if P.refin then
    (stepRight (reflect P.polyE P.width))^[n] (r ^^^ (b &&& mask n))
  else
    let b := b &&& ((mask n <<< (8 - n)) &&& 0xFF)
    if 8 ≤ P.width then
      (stepLeft (P.width - 1) P.polyE)^[n] (r ^^^ (b <<< (P.width - 8)))
    else
      let s := 8 - P.width
      ((stepLeft 7 (P.polyE <<< s))^[n] ((r <<< s) ^^^ b)) >>> s

/-- A buffer folded byte by byte, byte 0 first (R87). -/
def foldBuffer (P : ParamSet) (r : Nat) (bytes : List Nat) : Nat :=
  bytes.foldl (fun r b => bitFold P r b 8) r

end Sys2Proof.Machine
end

