-- ==== Sys2Proof/Safety.lean ====
section
/-! DEFINITION. The terms that claims use: the invariant of the machine, the classes of commands,
and when two states differ in nothing a host can see. -/

namespace Sys2Proof.Machine

/-- What the spec says holds at all times. -/
structure State.Inv (s : State) : Prop where
  /-- WMAX is 1 to 64 (R5). -/
  wmax_pos : 1 ≤ s.wmax
  wmax_le : s.wmax ≤ 64
  /-- CTRL's reserved bits read 0 (R17). -/
  ctrl_reserved : s.ctrl &&& 0x37F = s.ctrl
  /-- TCTRL has CTRL's layout (R26). -/
  tctrl_reserved : s.tctrl &&& 0x37F = s.tctrl
  /-- "TCTRL.WIDTH ≤ WMAX always holds" (R26). -/
  tctrl_width : s.tcfg.width ≤ s.wmax
  /-- R is below 2^W for the W of the set that wrote it, W ≤ WMAX (R24). -/
  r_bound : s.r.toNat < 2 ^ s.wmax
  /-- RESULT is below 2^W, or below 2^N after REFL, and both are at most WMAX (R70, R71, R58). -/
  result_bound : s.result.toNat < 2 ^ s.wmax
  /-- After a BUILD, entry b is TableEntry(TCFG, b) (R28). -/
  table_built : s.tvalid = true → s.table = buildTable s.tcfg
  /-- With no BUILD since reset, TCFG is as reset left it (R26, R27). -/
  no_table : s.tvalid = false → s.tctrl = 0 ∧ s.tpoly = 0 ∧ s.tinit = 0 ∧ s.txorout = 0
  /-- With ERR = 0 nothing is recorded (R23). -/
  no_error : s.err = false → s.errcode = 0 ∧ s.errop = 0
  /-- Codes 6 to 15 are never recorded, and 0 is no error's (R93). -/
  error_code : s.err = true → 1 ≤ s.errcode.toNat ∧ s.errcode.toNat ≤ 5

/-- Every element of R15 to which R109 gives a value has it. TABLE, which R109 leaves unspecified,
is not in the list. -/
structure AtResetValues (s : State) : Prop where
  ctrl : s.ctrl = 0
  poly : s.poly = 0
  init : s.init = 0
  xorout : s.xorout = 0
  arg : s.arg = 0
  r : s.r = 0
  result : s.result = 0
  tctrl : s.tctrl = 0
  tpoly : s.tpoly = 0
  tinit : s.tinit = 0
  txorout : s.txorout = 0
  tvalid : s.tvalid = false
  tidx : s.tidx = 0
  err : s.err = false
  errcode : s.errcode = 0
  errop : s.errop = 0

/-- An access that reaches no register (R34): not at a multiple of 8, or past 0x78. -/
def unmapped (off : Nat) : Bool := !(decide (off % 8 = 0) && decide (off ≤ 0x78))

/-- The offsets of the read-only registers, in the order R36 names them. -/
def readOnlyOffsets : List Nat := [0x30, 0x38, 0x40, 0x48, 0x50, 0x58, 0x60, 0x70, 0x78]

/-- The run recorded no error: what the host reads STATUS for before it trusts RESULT (R116). -/
def State.Trusted (s : State) : Prop := s.err = false

/-- The words whose OP is op: those that agree with op under mask decode to the command read from
the word and run it, the others have a reserved bit set and are refused with code 2 (R48, R50, R51). -/
def WordsOf (op : BitVec 8) (mask : Word) (command : Word → Instr) : Prop :=
  ∀ v : Word, opField v = op →
    (decode v = if v &&& mask = op.zeroExtend 64 then .ok (command v) else .error .rsvd) ∧
    ∀ s : State, execute v s =
      if v &&& mask = op.zeroExtend 64 then exec (command v) s else .next (cmdError .rsvd op s)

/-- OP values that R50 lists as illegal. -/
def illegalOp (op : Nat) : Bool :=
  (decide (0x09 ≤ op) && decide (op ≤ 0x10)) || (decide (0x18 ≤ op) && decide (op ≤ 0x1F)) ||
    (decide (0x21 ≤ op) && decide (op ≤ 0x3E)) || (decide (0x40 ≤ op) && decide (op ≤ 0xFF))

end Sys2Proof.Machine

namespace Sys2Proof

/-- The commands that write R (R24). -/
def Instr.writesR : Instr → Bool
  | .seed | .resume | .feed _ | .feedbits _ _ | .tseed | .tresume | .tfeed _ | .tfeedbits _ _ => true
  | .nop | .fin | .unfin | .finx | .build | .tfin | .tunfin | .tfinx | .refl _ | .clrerr => false

/-- The commands that write RESULT (R25). -/
def Instr.writesResult : Instr → Bool
  | .fin | .unfin | .finx | .tfin | .tunfin | .tfinx | .refl _ => true
  | .nop | .seed | .resume | .feed _ | .feedbits _ _ | .build | .tseed | .tresume | .tfeed _
  | .tfeedbits _ _ | .clrerr => false

/-- The commands that read CFG (R93, R95). -/
def Instr.readsCfg : Instr → Bool
  | .seed | .resume | .feed _ | .feedbits _ _ | .fin | .unfin | .finx | .build => true
  | .nop | .tseed | .tresume | .tfeed _ | .tfeedbits _ _ | .tfin | .tunfin | .tfinx | .refl _
  | .clrerr => false

/-- The table commands, which read TCFG (R27, R95). -/
def Instr.readsTcfg : Instr → Bool
  | .tseed | .tresume | .tfeed _ | .tfeedbits _ _ | .tfin | .tunfin | .tfinx => true
  | .nop | .seed | .resume | .feed _ | .feedbits _ _ | .fin | .unfin | .finx | .build | .refl _
  | .clrerr => false

end Sys2Proof

namespace Sys2Proof.Machine

/-- The two states are equal but for the contents of the table RAM. -/
def SameButTable (s t : State) : Prop := t = { s with table := t.table }

end Sys2Proof.Machine
end

