-- ==== Sys2Proof/Certificates/Slice0/Obligations.lean ====
section
/-! DEFINITION. The statements for the provers. Each docstring says what is stated and cites what it
rests on. -/

open Sys2Proof Sys2Proof.Machine

/-- For every well-formed command, with every operand at every value its field admits, decoding its
word gives the command. (30_encoding.md R47, R48, R49, R53) -/
def Obligations.DecodeInvertsEncode : Prop :=
  ∀ i : Instr, i.WellFormed → decode (encode i) = .ok i

/-- If a word decodes to a command, the command is well-formed and its encoding is that very word,
so no bit of a word is ignored. (30_encoding.md R46, R47, R48) -/
def Obligations.EncodeInvertsDecode : Prop :=
  ∀ (v : Word) (i : Instr), decode v = .ok i → i.WellFormed ∧ encode i = v

/-- One word of every command, written out from R48 and R49 and the spec's examples (0x3103,
0x30704, 0x200020), decodes to that command. (30_encoding.md R48, R49, R53) -/
def Obligations.SpecWordsDecode : Prop :=
  decode 0x0 = .ok (.nop) ∧
    decode 0x01 = .ok (.seed) ∧
    decode 0x02 = .ok (.resume) ∧
    decode 0x3103 = .ok (.feed 0x31) ∧
    decode 0x30704 = .ok (.feedbits 0x07 3) ∧
    decode 0x05 = .ok (.fin) ∧
    decode 0x06 = .ok (.unfin) ∧
    decode 0x07 = .ok (.finx) ∧
    decode 0x08 = .ok (.build) ∧
    decode 0x11 = .ok (.tseed) ∧
    decode 0x12 = .ok (.tresume) ∧
    decode 0x3113 = .ok (.tfeed 0x31) ∧
    decode 0x3BF14 = .ok (.tfeedbits 0xBF 3) ∧
    decode 0x15 = .ok (.tfin) ∧
    decode 0x16 = .ok (.tunfin) ∧
    decode 0x17 = .ok (.tfinx) ∧
    decode 0x200020 = .ok (.refl 32) ∧
    decode 0x3F = .ok (.clrerr)

/-- A word is refused by the decoder with ILLOP if and only if its OP is in 0x09 to 0x10, 0x18 to
0x1F, 0x21 to 0x3E or 0x40 to 0xFF. (30_encoding.md R49, R50) -/
def Obligations.IllegalOpcodesAreIllop : Prop :=
  ∀ v : Word, decode v = .error .illop ↔ illegalOp (opField v).toNat = true

/-- No word matches two rows of the opcode table, and a word decodes to a command if and only if it
matches one row, (v & mask) == match. (30_encoding.md R48, R49; opcode_table.json) -/
def Obligations.DecodesIffOneTableRowMatches : Prop :=
  ∀ v : Word, (matchingRows v).length ≤ 1 ∧
    ((∃ i, decode v = .ok i) ↔ (matchingRows v).length = 1)

/-- For bytes 0..255 and 64-bit values, config, maketable, feedbuf, tfeedbuf, feedbitsbuf,
tfeedbitsbuf, calc, calcprior, tcalc, tcalcprior, calcbits, tcalcbits and reflect assemble to
the register writes and command words of R54's expansion column, in order; the bit-granular ones
for a buffer that holds every byte they need and any elements after those, which the model does
not check (its choice, log entry 18). (30_encoding.md R54; 44_dispatch.md R88) -/
def Obligations.PseudoInstructionsExpand : Prop :=
  (∀ W p i x ri ro : Nat, W < 2 ^ 7 → p < 2 ^ 64 → i < 2 ^ 64 → x < 2 ^ 64 → ri < 2 → ro < 2 →
      (Pseudo.config W p i x ri ro).accesses =
        some [.write 0x00 (BitVec.ofNat 64 (W + ri * 2 ^ 8 + ro * 2 ^ 9)),
          .write 0x08 (BitVec.ofNat 64 p), .write 0x10 (BitVec.ofNat 64 i),
          .write 0x18 (BitVec.ofNat 64 x)]) ∧
    Pseudo.maketable.accesses = some (cmds [.build]) ∧
    (∀ v n : Nat, v < 2 ^ 64 → n ≤ 127 →
      (Pseudo.reflect v n).accesses =
        some (.write 0x20 (BitVec.ofNat 64 v) :: cmds [.refl n])) ∧
    (∀ ds : List Nat, (∀ d ∈ ds, d ≤ 255) →
      (Pseudo.feedbuf ds).accesses = some (callCmds [] .feed ds []) ∧
      (Pseudo.tfeedbuf ds).accesses = some (callCmds [] .tfeed ds []) ∧
      (Pseudo.calc ds).accesses = some (callCmds [.seed] .feed ds [.fin]) ∧
      (Pseudo.tcalc ds).accesses = some (callCmds [.tseed] .tfeed ds [.tfin]) ∧
      (∀ crc < 2 ^ 64,
        (Pseudo.calcprior ds crc).accesses =
          some (.write 0x20 (BitVec.ofNat 64 crc) ::
            callCmds [.resume] .feed ds [.fin]) ∧
        (Pseudo.tcalcprior ds crc).accesses =
          some (.write 0x20 (BitVec.ofNat 64 crc) ::
            callCmds [.tresume] .tfeed ds [.tfin]))) ∧
    (∀ (ds es : List Nat) (d nb : Nat), (∀ e ∈ ds, e ≤ 255) → d ≤ 255 → 1 ≤ nb → nb ≤ 7 →
      (Pseudo.feedbitsbuf (ds ++ d :: es) (8 * ds.length + nb)).accesses =
        some (callCmds [] .feed ds [.feedbits d nb]) ∧
      (Pseudo.feedbitsbuf (ds ++ es) (8 * ds.length)).accesses = some (callCmds [] .feed ds []) ∧
      (Pseudo.tfeedbitsbuf (ds ++ d :: es) (8 * ds.length + nb)).accesses =
        some (callCmds [] .tfeed ds [.tfeedbits d nb]) ∧
      (Pseudo.tfeedbitsbuf (ds ++ es) (8 * ds.length)).accesses =
        some (callCmds [] .tfeed ds []) ∧
      (Pseudo.calcbits (ds ++ d :: es) (8 * ds.length + nb) none).accesses =
        some (callCmds [.seed] .feed ds [.feedbits d nb, .fin]) ∧
      (Pseudo.calcbits (ds ++ es) (8 * ds.length) none).accesses =
        some (callCmds [.seed] .feed ds [.fin]) ∧
      (Pseudo.tcalcbits (ds ++ d :: es) (8 * ds.length + nb) none).accesses =
        some (callCmds [.tseed] .tfeed ds [.tfeedbits d nb, .tfin]) ∧
      (Pseudo.tcalcbits (ds ++ es) (8 * ds.length) none).accesses =
        some (callCmds [.tseed] .tfeed ds [.tfin]) ∧
      (∀ crc < 2 ^ 64,
        (Pseudo.calcbits (ds ++ d :: es) (8 * ds.length + nb) (some crc)).accesses =
          some (.write 0x20 (BitVec.ofNat 64 crc) ::
            callCmds [.resume] .feed ds [.feedbits d nb, .fin]) ∧
        (Pseudo.calcbits (ds ++ es) (8 * ds.length) (some crc)).accesses =
          some (.write 0x20 (BitVec.ofNat 64 crc) :: callCmds [.resume] .feed ds [.fin]) ∧
        (Pseudo.tcalcbits (ds ++ d :: es) (8 * ds.length + nb) (some crc)).accesses =
          some (.write 0x20 (BitVec.ofNat 64 crc) ::
            callCmds [.tresume] .tfeed ds [.tfeedbits d nb, .tfin]) ∧
        (Pseudo.tcalcbits (ds ++ es) (8 * ds.length) (some crc)).accesses =
          some (.write 0x20 (BitVec.ofNat 64 crc) :: callCmds [.tresume] .tfeed ds [.tfin])))

/-- When the next access writes a word that decodes to a command to offset 0x28, the step is exec of
that command at the state in which that access is no longer pending. So is the step of any state
in which withFetchWord has placed a table word the decoder reads as that command (the model's
own placing, log entry 2). (10_state.md R22; 30_encoding.md R51; 10_state.md R14) -/
def Obligations.StepRunsDecodedCommand : Prop :=
  (∀ (s : State) (v : Word) (i : Instr) (rest : List Access),
      s.pending = .write 0x28 v :: rest → decode v = .ok i →
        step s = exec i { s with pending := rest }) ∧
    (∀ (s : State) (nbits w : Nat) (i : Instr), decodeTableWord nbits w = some i →
      step (s.withFetchWord nbits w) = exec i s)

/-- When the next access writes a word the decoder rejects to offset 0x28, the step answers a next
state: with ERR = 0 the code of the rejection and OP are recorded, with ERR = 1 nothing is;
everything else stands and the access is no longer pending (the list of accesses is the model's,
log entry 2). (30_encoding.md R50, R51; 60_exceptions.md R97) -/
def Obligations.StepRefusesUndecodedWord : Prop :=
  ∀ (s : State) (v : Word) (e : CmdError) (rest : List Access),
    s.pending = .write 0x28 v :: rest → decode v = .error e →
      step s = .next (if s.err = true then { s with pending := rest }
        else { s with pending := rest, err := true, errcode := e.code, errop := opField v })

/-- The five error codes are 1 to 5 as R93 numbers them, and raising one with OP op writes ERR,
ERRCODE and ERROP when ERR = 0, changes nothing when ERR = 1, and never changes anything else.
(60_exceptions.md R93, R97) -/
def Obligations.ErrorCodesAndFirstError : Prop :=
  (CmdError.illop.code = 1 ∧ CmdError.rsvd.code = 2 ∧ CmdError.width.code = 3 ∧
      CmdError.notable.code = 4 ∧ CmdError.range.code = 5) ∧
    ∀ (e : CmdError) (op : BitVec 8) (s : State),
      (s.err = false → cmdError e op s = { s with err := true, errcode := e.code, errop := op }) ∧
      (s.err = true → cmdError e op s = s)

/-- Execute(v) refuses with ILLOP when OP is no opcode; else with RSVD when no table row matches;
else with NOTABLE when OP is 0x11 to 0x17 and TVALID = 0; else with WIDTH when OP is 0x01 to
0x08 and CTRL.WIDTH > WMAX; else with RANGE when OP is 0x20 and v[22:16] > WMAX; else it is exec
of the decoded command, which answers a next state with the error record as it was, cleared for
CLRERR. Each refusal records its code and OP. (30_encoding.md R51; 60_exceptions.md R95, R96) -/
def Obligations.ErrorPriority : Prop :=
  ∀ (v : Word) (s : State),
    let op := (opField v).toNat
    let refuse := fun e : CmdError => Host.Outcome.next (cmdError e (opField v) s)
    if illegalOp op = true then execute v s = refuse .illop
    else if matchingRows v = [] then execute v s = refuse .rsvd
    else if (0x11 ≤ op ∧ op ≤ 0x17) ∧ s.tvalid = false then execute v s = refuse .notable
    else if (0x01 ≤ op ∧ op ≤ 0x08) ∧ s.wmax < s.cfg.width then execute v s = refuse .width
    else if op = 0x20 ∧ s.wmax < v.toNat / 2 ^ 16 % 2 ^ 7 then execute v s = refuse .range
    else ∃ i t, decode v = .ok i ∧ execute v s = exec i s ∧ exec i s = .next t ∧
      (t.err, t.errcode, t.errop) =
        if i = .clrerr then (false, 0, 0) else (s.err, s.errcode, s.errop)

/-- exec of any command at any state and step of any state answer a next state: the engine has no
trap, fault or stop. With no access pending a step answers the same state (the idle step is the
model's, log entry 2). (30_encoding.md R52; 60_exceptions.md R98; 93_implementation_defined.md;
60_exceptions.md R107) -/
def Obligations.EveryStepAnswersNext : Prop :=
  (∀ (i : Instr) (s : State), ∃ t, exec i s = .next t) ∧ (∀ s : State, ∃ t, step s = .next t) ∧
    ∀ s : State, s.pending = [] → step s = .next s

/-- If a step answers a next state, its pending accesses are the old ones without the first, and
the values returned to the host are the old ones, with one value in front exactly when that access
is a PortRead. Both lists are the model's: the one consumed from the front, the empty one idling
(log entry 2), the one kept newest first (log entry 3), both left by the reset input (log entry 4).
(10_state.md R14; 20_memory.md R39, R40) -/
def Obligations.EachStepConsumesOneAccess : Prop :=
  ∀ s t : State, step s = .next t →
    t.pending = s.pending.tail ∧
      ((∃ off rest, s.pending = .read off :: rest ∧ t.reads = portRead off s :: s.reads) ∨
       ((∀ off rest, s.pending ≠ .read off :: rest) ∧ t.reads = s.reads))

/-- A step that performs PortRead(off) changes nothing but handing the value to the host (in a list
of the model's own, log entry 3), and the values of the sixteen mapped offsets are those of R35's
host-read column: CMD reads 0, TDATA reads TABLE[TIDX] when TVALID = 1 and 0 otherwise, CAPS reads
WMAX. (20_memory.md R34, R35, R39; 10_state.md R22, R30, R31) -/
def Obligations.PortReadReturnsTheRegister : Prop :=
  (∀ (s : State) (off : Nat) (rest : List Access), s.pending = .read off :: rest →
      step s = .next { s with pending := rest, reads := portRead off s :: s.reads }) ∧
    ∀ s : State,
      portRead 0x00 s = s.ctrl ∧ portRead 0x08 s = s.poly ∧ portRead 0x10 s = s.init ∧
      portRead 0x18 s = s.xorout ∧ portRead 0x20 s = s.arg ∧ portRead 0x28 s = 0 ∧
      portRead 0x30 s = statusWord s ∧ portRead 0x38 s = s.r ∧ portRead 0x40 s = s.result ∧
      portRead 0x48 s = s.tctrl ∧ portRead 0x50 s = s.tpoly ∧ portRead 0x58 s = s.tinit ∧
      portRead 0x60 s = s.txorout ∧ portRead 0x68 s = s.tidx.zeroExtend 64 ∧
      portRead 0x70 s = (if s.tvalid = true then s.table.entries.getD s.tidx.toNat 0 else 0) ∧
      portRead 0x78 s = BitVec.ofNat 64 s.wmax

/-- A step that performs PortWrite to CTRL stores v & 0x37F, to POLY, INIT, XOROUT and ARG stores v,
to TIDX stores v & 0xFF; every other element, R, RESULT, TCFG, TABLE, TVALID and the error
record among them, is unchanged. (20_memory.md R35; 10_state.md R17, R18, R19, R20, R21, R29;
70_reset_and_hazards.md R111) -/
def Obligations.PortWriteStoresTheRegister : Prop :=
  ∀ (s : State) (v : Word) (rest : List Access),
    (s.pending = .write 0x00 v :: rest →
      step s = .next { s with pending := rest, ctrl := v &&& 0x37F }) ∧
    (s.pending = .write 0x08 v :: rest → step s = .next { s with pending := rest, poly := v }) ∧
    (s.pending = .write 0x10 v :: rest → step s = .next { s with pending := rest, init := v }) ∧
    (s.pending = .write 0x18 v :: rest → step s = .next { s with pending := rest, xorout := v }) ∧
    (s.pending = .write 0x20 v :: rest → step s = .next { s with pending := rest, arg := v }) ∧
    (s.pending = .write 0x68 v :: rest →
      step s = .next { s with pending := rest, tidx := BitVec.ofNat 8 (v.toNat % 2 ^ 8) })

/-- An access whose offset is not a multiple of 8 up to 0x78 reads 0 and writes nothing, a write to
STATUS, REM, RESULT, TCTRL, TPOLY, TINIT, TXOROUT, TDATA or CAPS is ignored, a read of CMD
returns 0, and none of them records an error or changes any state (R34's reading, log entry 6).
(20_memory.md R34, R36, R38) -/
def Obligations.UnmappedAndReadOnlyAccesses : Prop :=
  ∀ (s : State) (off : Nat) (v : Word) (rest : List Access),
    (s.pending = .read off :: rest → (unmapped off = true ∨ off = 0x28) →
      step s = .next { s with pending := rest, reads := 0 :: s.reads }) ∧
    (s.pending = .write off v :: rest → (unmapped off = true ∨ off ∈ readOnlyOffsets) →
      step s = .next { s with pending := rest })

/-- The word that a read of offset 0x30 returns is ERROP, ERRCODE, two zero bits, ERR and TVALID
side by side from bit 15 down to bit 0, with zeros above. (10_state.md R23) -/
def Obligations.StatusWordLayout : Prop :=
  ∀ s : State, portRead 0x30 s =
    (s.errop ++ s.errcode ++ 0#2 ++ BitVec.ofBool s.err ++ BitVec.ofBool s.tvalid).zeroExtend 64

/-- CFG's width is CTRL[6:0], its reflection flags CTRL[8] and CTRL[9], its polynomial, initial
value and final XOR the values of POLY, INIT and XOROUT; TCFG reads the same fields from TCTRL,
TPOLY, TINIT and TXOROUT; the effective values are those masked to W bits. (10_state.md R16,
R17, R26) -/
def Obligations.ParameterSetsReadTheirRegisters : Prop :=
  ∀ s : State,
    s.cfg = ⟨s.ctrl.toNat % 2 ^ 7, s.poly.toNat, s.init.toNat, s.xorout.toNat,
      s.ctrl.toNat.testBit 8, s.ctrl.toNat.testBit 9⟩ ∧
    s.tcfg = ⟨s.tctrl.toNat % 2 ^ 7, s.tpoly.toNat, s.tinit.toNat, s.txorout.toNat,
      s.tctrl.toNat.testBit 8, s.tctrl.toNat.testBit 9⟩ ∧
    ∀ P : ParamSet, P.polyE = P.poly % 2 ^ P.width ∧ P.initE = P.init % 2 ^ P.width ∧
      P.xoroutE = P.xorout % 2 ^ P.width

/-- Every element of R15 to which R109 gives a value has it in State.reset. A step that performs the
reset input answers a state in which every element of R15 to which R109 gives a value has it;
the parameter WMAX stands, and so do the host's own accesses still to come and the values
already returned (log entry 4). Nothing is said of TABLE, which R109 leaves unspecified.
(70_reset_and_hazards.md R108, R109) -/
def Obligations.ResetInputRestoresResetValues : Prop :=
  AtResetValues State.reset ∧
  ∀ (s : State) (rest : List Access), s.pending = .reset :: rest →
    ∃ t, step s = .next t ∧ AtResetValues t ∧ t.wmax = s.wmax ∧ t.pending = rest ∧
      t.reads = s.reads

/-- NOP answers the state it starts from, whatever the configuration or table; only the word 0 is
NOP; any other word with OP 0x00 has a reserved bit set and is refused with code 2. (R85) -/
def Obligations.NopChangesNothing : Prop :=
  (∀ s : State, exec .nop s = .next s) ∧ WordsOf 0x00 0xFFFFFFFFFFFFFFFF (fun _ => .nop)

/-- CLRERR answers the state in which ERR, ERRCODE and ERROP are 0 and everything else, TVALID among
it, stands; its only word is 0x3F; any other word with OP 0x3F is refused with code 2 and clears
nothing. (R86) -/
def Obligations.ClrerrClearsTheErrorRecord : Prop :=
  (∀ s : State, exec .clrerr s = .next { s with err := false, errcode := 0, errop := 0 }) ∧
    WordsOf 0x3F 0xFFFFFFFFFFFFFFFF (fun _ => .clrerr)

/-- When N ≤ WMAX REFL answers the state in which RESULT is Reflect(ARG, N) and everything else
stands; when N > WMAX it is refused with code 5; its words are format N with OP 0x20; any other
word with that OP has a reserved bit set and is refused with code 2. (R58) -/
def Obligations.ReflReflectsArgIntoResult : Prop :=
  (∀ (s : State) (n : Nat), n ≤ s.wmax →
      exec (.refl n) s = .next { s with result := BitVec.ofNat 64 (reflect s.arg.toNat n) }) ∧
    (∀ (s : State) (n : Nat), s.wmax < n →
      exec (.refl n) s = .next (cmdError .range 0x20 s)) ∧
    WordsOf 0x20 0xFFFFFFFFFF80FFFF (fun v => .refl (v.toNat / 2 ^ 16 % 2 ^ 7))

/-- When CTRL.WIDTH ≤ WMAX the command answers the state in which R is INIT & mask(CTRL.WIDTH) and
everything else stands; when CTRL.WIDTH > WMAX it is refused with code 3; its words are those of
its format with OP 0x01; any other word with that OP has a reserved bit set and is refused with
code 2. (R79) -/
def Obligations.SeedLoadsInit : Prop :=
  (∀ (s : State), s.cfg.width ≤ s.wmax →
      exec .seed s = .next { s with r := s.init &&& BitVec.ofNat 64 (2 ^ s.cfg.width - 1) }) ∧
    (∀ (s : State), s.wmax < s.cfg.width →
      exec .seed s = .next (cmdError .width 0x01 s)) ∧
    WordsOf 0x01 0xFFFFFFFFFFFFFFFF (fun _ => .seed)

/-- When TVALID = 1 the command answers the state in which R is TINIT & mask(TCTRL.WIDTH) and
everything else stands; when TVALID = 0 it is refused with code 4; its words are those of its
format with OP 0x11; any other word with that OP has a reserved bit set and is refused with code
2. (R80) -/
def Obligations.TseedLoadsTinit : Prop :=
  (∀ (s : State), s.tvalid = true →
      exec .tseed s = .next { s with r := s.tinit &&& BitVec.ofNat 64 (2 ^ s.tcfg.width - 1) }) ∧
    (∀ (s : State), s.tvalid = false →
      exec .tseed s = .next (cmdError .notable 0x11 s)) ∧
    WordsOf 0x11 0xFFFFFFFFFFFFFFFF (fun _ => .tseed)

/-- When CTRL.WIDTH ≤ WMAX the command answers the state in which R is UndoFinalize(CFG, ARG) and
everything else stands; when CTRL.WIDTH > WMAX it is refused with code 3; its words are those of
its format with OP 0x02; any other word with that OP has a reserved bit set and is refused with
code 2. (R81) -/
def Obligations.ResumeUndoesFinalizeOfArg : Prop :=
  (∀ (s : State), s.cfg.width ≤ s.wmax →
      exec .resume s = .next { s with r := BitVec.ofNat 64 (undoFinalize s.cfg s.arg.toNat) }) ∧
    (∀ (s : State), s.wmax < s.cfg.width →
      exec .resume s = .next (cmdError .width 0x02 s)) ∧
    WordsOf 0x02 0xFFFFFFFFFFFFFFFF (fun _ => .resume)

/-- When TVALID = 1 the command answers the state in which R is UndoFinalize(TCFG, ARG) and
everything else stands; when TVALID = 0 it is refused with code 4; its words are those of its
format with OP 0x12; any other word with that OP has a reserved bit set and is refused with code
2. (R82) -/
def Obligations.TresumeUndoesFinalizeOfArg : Prop :=
  (∀ (s : State), s.tvalid = true →
      exec .tresume s = .next { s with r := BitVec.ofNat 64 (undoFinalize s.tcfg s.arg.toNat) }) ∧
    (∀ (s : State), s.tvalid = false →
      exec .tresume s = .next (cmdError .notable 0x12 s)) ∧
    WordsOf 0x12 0xFFFFFFFFFFFFFFFF (fun _ => .tresume)

/-- When CTRL.WIDTH ≤ WMAX the command answers the state in which R is BitFold(CFG, R, DATA, 8) and
everything else stands; when CTRL.WIDTH > WMAX it is refused with code 3; its words are those of
its format with OP 0x03; any other word with that OP has a reserved bit set and is refused with
code 2. (R63) -/
def Obligations.FeedFoldsOneByte : Prop :=
  (∀ (s : State) (d : Nat), s.cfg.width ≤ s.wmax →
      exec (.feed d) s = .next { s with r := BitVec.ofNat 64 (bitFold s.cfg s.r.toNat d 8) }) ∧
    (∀ (s : State) (d : Nat), s.wmax < s.cfg.width →
      exec (.feed d) s = .next (cmdError .width 0x03 s)) ∧
    WordsOf 0x03 0xFFFFFFFFFFFF00FF (fun v => .feed (v.toNat / 2 ^ 8 % 2 ^ 8))

/-- When CTRL.WIDTH ≤ WMAX the command answers the state in which R is BitFold(CFG, R, DATA, NB) and
everything else stands; when CTRL.WIDTH > WMAX it is refused with code 3; its words are those of
its format with OP 0x04; any other word with that OP has a reserved bit set and is refused with
code 2. (44_dispatch.md R83) -/
def Obligations.FeedbitsFoldsLeadingBits : Prop :=
  (∀ (s : State) (d nb : Nat), s.cfg.width ≤ s.wmax →
      exec (.feedbits d nb) s = .next { s with r := BitVec.ofNat 64 (bitFold s.cfg s.r.toNat d nb) }) ∧
    (∀ (s : State) (d nb : Nat), s.wmax < s.cfg.width →
      exec (.feedbits d nb) s = .next (cmdError .width 0x04 s)) ∧
    WordsOf 0x04 0xFFFFFFFFFFF800FF (fun v => .feedbits (v.toNat / 2 ^ 8 % 2 ^ 8) (v.toNat / 2 ^ 16 % 2 ^ 3))

/-- When TVALID = 1 the command answers the state in which R is BitFold(TCFG, R, DATA, NB) and
everything else stands; when TVALID = 0 it is refused with code 4; its words are those of its
format with OP 0x14; any other word with that OP has a reserved bit set and is refused with code
2. (R84) -/
def Obligations.TfeedbitsFoldsLeadingBits : Prop :=
  (∀ (s : State) (d nb : Nat), s.tvalid = true →
      exec (.tfeedbits d nb) s = .next { s with r := BitVec.ofNat 64 (bitFold s.tcfg s.r.toNat d nb) }) ∧
    (∀ (s : State) (d nb : Nat), s.tvalid = false →
      exec (.tfeedbits d nb) s = .next (cmdError .notable 0x14 s)) ∧
    WordsOf 0x14 0xFFFFFFFFFFF800FF (fun v => .tfeedbits (v.toNat / 2 ^ 8 % 2 ^ 8) (v.toNat / 2 ^ 16 % 2 ^ 3))

/-- When TVALID = 1 the command answers the state in which R is TableFold(TCFG, R, DATA) and
everything else stands; when TVALID = 0 it is refused with code 4; its words are those of its
format with OP 0x13; any other word with that OP has a reserved bit set and is refused with code
2. (R69) -/
def Obligations.TfeedFoldsByOneLookup : Prop :=
  (∀ (s : State) (d : Nat), s.tvalid = true →
      exec (.tfeed d) s = .next { s with r := BitVec.ofNat 64 (tableFold s.tcfg s.table s.r.toNat d) }) ∧
    (∀ (s : State) (d : Nat), s.tvalid = false →
      exec (.tfeed d) s = .next (cmdError .notable 0x13 s)) ∧
    WordsOf 0x13 0xFFFFFFFFFFFF00FF (fun v => .tfeed (v.toNat / 2 ^ 8 % 2 ^ 8))

/-- When CTRL.WIDTH ≤ WMAX ≤ 64 BUILD answers the state in which entry b of TABLE is TableEntry(CFG,
b) for b = 0 .. 255, TCTRL, TPOLY, TINIT and TXOROUT hold CTRL, POLY, INIT and XOROUT, TVALID is
1 and everything else stands; when CTRL.WIDTH > WMAX it is refused with code 3; its only word is
0x08; any other word with OP 0x08 is refused with code 2. (R65) -/
def Obligations.BuildWritesTableAndSnapshot : Prop :=
  (∀ s : State, s.cfg.width ≤ s.wmax → s.wmax ≤ 64 →
      ∃ T : Table, (∀ b < 256, T.entry b = tableEntry s.cfg b) ∧
        exec .build s = .next { s with
          table := T, tctrl := s.ctrl, tpoly := s.poly, tinit := s.init, txorout := s.xorout,
          tvalid := true }) ∧
    (∀ s : State, s.wmax < s.cfg.width → exec .build s = .next (cmdError .width 0x08 s)) ∧
    WordsOf 0x08 0xFFFFFFFFFFFFFFFF (fun _ => .build)

/-- When CTRL.WIDTH ≤ WMAX the command answers the state in which RESULT is Finalize(CFG, R) and
everything else stands; when CTRL.WIDTH > WMAX it is refused with code 3; its words are those of
its format with OP 0x05; any other word with that OP has a reserved bit set and is refused with
code 2. (R73) -/
def Obligations.FinFinalizesR : Prop :=
  (∀ (s : State), s.cfg.width ≤ s.wmax →
      exec .fin s = .next { s with result := BitVec.ofNat 64 (finalize s.cfg s.r.toNat) }) ∧
    (∀ (s : State), s.wmax < s.cfg.width →
      exec .fin s = .next (cmdError .width 0x05 s)) ∧
    WordsOf 0x05 0xFFFFFFFFFFFFFFFF (fun _ => .fin)

/-- When CTRL.WIDTH ≤ WMAX the command answers the state in which RESULT is UndoFinalize(CFG, ARG)
and everything else stands; when CTRL.WIDTH > WMAX it is refused with code 3; its words are
those of its format with OP 0x06; any other word with that OP has a reserved bit set and is
refused with code 2. (R74) -/
def Obligations.UnfinUndoesFinalizeOfArg : Prop :=
  (∀ (s : State), s.cfg.width ≤ s.wmax →
      exec .unfin s = .next { s with result := BitVec.ofNat 64 (undoFinalize s.cfg s.arg.toNat) }) ∧
    (∀ (s : State), s.wmax < s.cfg.width →
      exec .unfin s = .next (cmdError .width 0x06 s)) ∧
    WordsOf 0x06 0xFFFFFFFFFFFFFFFF (fun _ => .unfin)

/-- When CTRL.WIDTH ≤ WMAX the command answers the state in which RESULT is Finalize(CFG, ARG) and
everything else stands; when CTRL.WIDTH > WMAX it is refused with code 3; its words are those of
its format with OP 0x07; any other word with that OP has a reserved bit set and is refused with
code 2. (R75) -/
def Obligations.FinxFinalizesArg : Prop :=
  (∀ (s : State), s.cfg.width ≤ s.wmax →
      exec .finx s = .next { s with result := BitVec.ofNat 64 (finalize s.cfg s.arg.toNat) }) ∧
    (∀ (s : State), s.wmax < s.cfg.width →
      exec .finx s = .next (cmdError .width 0x07 s)) ∧
    WordsOf 0x07 0xFFFFFFFFFFFFFFFF (fun _ => .finx)

/-- When TVALID = 1 the command answers the state in which RESULT is Finalize(TCFG, R) and
everything else stands; when TVALID = 0 it is refused with code 4; its words are those of its
format with OP 0x15; any other word with that OP has a reserved bit set and is refused with code
2. (R76) -/
def Obligations.TfinFinalizesR : Prop :=
  (∀ (s : State), s.tvalid = true →
      exec .tfin s = .next { s with result := BitVec.ofNat 64 (finalize s.tcfg s.r.toNat) }) ∧
    (∀ (s : State), s.tvalid = false →
      exec .tfin s = .next (cmdError .notable 0x15 s)) ∧
    WordsOf 0x15 0xFFFFFFFFFFFFFFFF (fun _ => .tfin)

/-- When TVALID = 1 the command answers the state in which RESULT is UndoFinalize(TCFG, ARG) and
everything else stands; when TVALID = 0 it is refused with code 4; its words are those of its
format with OP 0x16; any other word with that OP has a reserved bit set and is refused with code
2. (R77) -/
def Obligations.TunfinUndoesFinalizeOfArg : Prop :=
  (∀ (s : State), s.tvalid = true →
      exec .tunfin s = .next { s with result := BitVec.ofNat 64 (undoFinalize s.tcfg s.arg.toNat) }) ∧
    (∀ (s : State), s.tvalid = false →
      exec .tunfin s = .next (cmdError .notable 0x16 s)) ∧
    WordsOf 0x16 0xFFFFFFFFFFFFFFFF (fun _ => .tunfin)

/-- When TVALID = 1 the command answers the state in which RESULT is Finalize(TCFG, ARG) and
everything else stands; when TVALID = 0 it is refused with code 4; its words are those of its
format with OP 0x17; any other word with that OP has a reserved bit set and is refused with code
2. (R78) -/
def Obligations.TfinxFinalizesArg : Prop :=
  (∀ (s : State), s.tvalid = true →
      exec .tfinx s = .next { s with result := BitVec.ofNat 64 (finalize s.tcfg s.arg.toNat) }) ∧
    (∀ (s : State), s.tvalid = false →
      exec .tfinx s = .next (cmdError .notable 0x17 s)) ∧
    WordsOf 0x17 0xFFFFFFFFFFFFFFFF (fun _ => .tfinx)

/-- Bit i of Reflect(v, n) is bit n-1-i of v for i below n, and 0 at and above n. (R55) -/
def Obligations.ReflectReversesLowBits : Prop :=
  ∀ v n i : Nat, (reflect v n).testBit i = (decide (i < n) && v.testBit (n - 1 - i))

/-- Reflect(v, n) is below 2^n and Reflect(v, 0) is 0; it depends on the low n bits only; it is its
own inverse on n-bit values; it distributes over exclusive OR; over one bit it is v & 1. (R56) -/
def Obligations.ReflectLaws : Prop :=
  ∀ v n : Nat,
    (reflect v n < 2 ^ n ∧ reflect v 0 = 0) ∧ reflect v n = reflect (v % 2 ^ n) n ∧
    (v < 2 ^ n → reflect (reflect v n) n = v) ∧
    (∀ w, reflect (v ^^^ w) n = reflect v n ^^^ reflect w n) ∧ reflect v 1 = v % 2

/-- For W ≥ 1 and n ≤ 8, BitFold's three cases equal the per-bit form started from r & m with the n
significant bits of the byte taken in processing order; for W = 0 BitFold is 0. (41_bitwise.md
R59, R60, R61) -/
def Obligations.BitFoldIsPerBitDivision : Prop :=
  ∀ (P : ParamSet) (r b n : Nat), b < 256 → n ≤ 8 →
    (1 ≤ P.width → bitFold P r b n = perBitFold P r b n) ∧
    (P.width = 0 → bitFold P r b n = 0)

/-- With reflectInput = 1, W ≥ 1 and a W-bit register x, reflecting the register after a per-bit
step gives the reflectInput = 0 step with the same data bit on the reflected register.
(41_bitwise.md R61) -/
def Obligations.ReflectedDatapathMirrors : Prop :=
  ∀ (P : ParamSet) (x : Nat) (d : Bool), P.refin = true → 1 ≤ P.width → x < 2 ^ P.width →
    reflect (perBitStep P x d) P.width =
      perBitStep { P with refin := false } (reflect x P.width) d

/-- For n1 ≤ 8, folding the first n1 bits of b and then the first 8 - n1 bits of b2 equals folding
all of b, where b2 is b >> n1 when reflectInput = 1 and (b << n1) & 0xFF when reflectInput = 0.
(41_bitwise.md R61) -/
def Obligations.ByteFoldsInTwoParts : Prop :=
  ∀ (P : ParamSet) (r b n1 : Nat), b < 256 → n1 ≤ 8 →
    bitFold P (bitFold P r b n1)
      (if P.refin = true then b >>> n1 else (b <<< n1) &&& 0xFF) (8 - n1) = bitFold P r b 8

/-- The source's unmasked algorithm agrees with BitFold in the low W bits: with reflectInput = 0
from any remainder that agrees in the low W bits, with reflectInput = 1 from a W-bit remainder
(R62's own reason; log entry 11). (41_bitwise.md R62) -/
def Obligations.MaskingChangesNoResult : Prop :=
  ∀ (P : ParamSet) (r r' b n : Nat), b < 256 → n ≤ 8 →
    (P.refin = false → r' % 2 ^ P.width = r % 2 ^ P.width →
      unmaskedFold P r' b n % 2 ^ P.width = bitFold P r b n) ∧
    (P.refin = true → r < 2 ^ P.width → unmaskedFold P r b n = bitFold P r b n)

/-- For n ≤ 7, two bytes that agree in their first n bits in processing order, the low n when REFIN
= 1 and the high n when REFIN = 0, give the same fold, and with n = 0 the remainder is only
masked. (44_dispatch.md R83) -/
def Obligations.PaddingBitsAreIgnored : Prop :=
  ∀ (P : ParamSet) (r b b' n : Nat), b < 256 → b' < 256 → n ≤ 7 →
    (P.refin = true → b % 2 ^ n = b' % 2 ^ n → bitFold P r b n = bitFold P r b' n) ∧
    (P.refin = false → b / 2 ^ (8 - n) = b' / 2 ^ (8 - n) →
      bitFold P r b n = bitFold P r b' n) ∧
    bitFold P r b 0 = r % 2 ^ P.width

/-- Two parameter sets of one width and the same reflection flags whose polynomial, initial value
and final XOR agree in the low W bits give the same effective seed, fold, table entry, Finalize
and UndoFinalize, on operands that agree in the low W bits. (10_state.md R16; 43_finalize.md
R72) -/
def Obligations.BitsAboveWidthNeverMatter : Prop :=
  ∀ (P Q : ParamSet) (x y b n : Nat), P.width = Q.width → P.refin = Q.refin → P.refout = Q.refout →
    P.poly % 2 ^ P.width = Q.poly % 2 ^ P.width → P.init % 2 ^ P.width = Q.init % 2 ^ P.width →
    P.xorout % 2 ^ P.width = Q.xorout % 2 ^ P.width → x % 2 ^ P.width = y % 2 ^ P.width →
    P.initE = Q.initE ∧ bitFold P x b n = bitFold Q y b n ∧ tableEntry P b = tableEntry Q b ∧
      finalize P x = finalize Q y ∧ undoFinalize P x = undoFinalize Q y

/-- With W = 0 the seed, every fold by bits or by table, every table entry, Finalize and
UndoFinalize are 0. (00_scope.md R6; 90_conflicts.md C1) -/
def Obligations.ZeroWidthGivesZero : Prop :=
  ∀ (P : ParamSet) (T : Table) (x b n : Nat), P.width = 0 → b < 256 → n ≤ 8 →
    P.initE = 0 ∧ bitFold P x b n = 0 ∧ tableFold P T x b = 0 ∧ tableEntry P b = 0 ∧
      finalize P x = 0 ∧ undoFinalize P x = 0

/-- With W = 1 and POLY's bit 0 set, folding a byte exclusive-ORs the parity of its eight bits into
the one-bit remainder, in both reflection modes. (41_bitwise.md R63) -/
def Obligations.WidthOneComputesParity : Prop :=
  ∀ (P : ParamSet) (r b : Nat), P.width = 1 → P.poly % 2 = 1 → b < 256 →
    bitFold P r b 8 = (r + ((List.range 8).filter b.testBit).length) % 2

/-- TableEntry(P, b) is BitFold(P, 0, b, 8) times 2^(8-W) when REFIN = 0 and W < 8 and BitFold(P, 0,
b, 8) otherwise, is below 2^max(W, 8), and in the aligned case has its low 8-W bits zero. (R64) -/
def Obligations.TableEntriesAreByteFolds : Prop :=
  ∀ (P : ParamSet) (b : Nat),
    tableEntry P b = bitFold P 0 b 8 * (if P.refin = false ∧ P.width < 8 then 2 ^ (8 - P.width) else 1) ∧
    tableEntry P b < 2 ^ max P.width 8 ∧
    (P.refin = true ∨ 8 ≤ P.width → tableEntry P b < 2 ^ P.width) ∧
    (P.refin = false → P.width < 8 → tableEntry P b % 2 ^ (8 - P.width) = 0)

/-- After a BUILD with CTRL.WIDTH ≤ WMAX ≤ 64, TableFold with the TABLE and TCFG it wrote equals
BitFold with TCFG over eight bits, for every remainder and every byte, and so a sequence of
bytes folds alike on both paths from the same remainder. (R68) -/
def Obligations.TableFoldEqualsBitFold : Prop :=
  ∀ s t : State, s.cfg.width ≤ s.wmax → s.wmax ≤ 64 → exec .build s = .next t →
    (∀ r b : Nat, b < 256 → tableFold t.tcfg t.table r b = bitFold t.tcfg r b 8) ∧
    ∀ (r : Nat) (ds : List Nat), (∀ d ∈ ds, d ≤ 255) →
      ds.foldl (tableFold t.tcfg t.table) r = foldBuffer t.tcfg r ds

/-- Below W, bit i of Finalize(P, r) is bit W-1-i of r when reflectInput ≠ reflectOutput and bit i
otherwise, exclusive-ORed with bit i of the final XOR; UndoFinalize exclusive-ORs first and
reflects then; both are 0 at and above W. (43_finalize.md R70, R71) -/
def Obligations.FinalizeBits : Prop :=
  ∀ (P : ParamSet) (x i : Nat),
    let j := if P.refin = P.refout then i else P.width - 1 - i
    (finalize P x).testBit i = (decide (i < P.width) && (x.testBit j ^^ P.xorout.testBit i)) ∧
    (undoFinalize P x).testBit i = (decide (i < P.width) && (x.testBit j ^^ P.xorout.testBit j))

/-- For every parameter set and every W-bit value, UndoFinalize(P, Finalize(P, r)) = r and
Finalize(P, UndoFinalize(P, c)) = c; for any value both depend on its low W bits only; for W = 0
both are 0. (R72) -/
def Obligations.FinalizeRoundTrips : Prop :=
  ∀ (P : ParamSet) (x : Nat),
    (x < 2 ^ P.width → undoFinalize P (finalize P x) = x ∧ finalize P (undoFinalize P x) = x) ∧
    finalize P x = finalize P (x % 2 ^ P.width) ∧
    undoFinalize P x = undoFinalize P (x % 2 ^ P.width) ∧
    (P.width = 0 → finalize P x = 0 ∧ undoFinalize P x = 0)

/-- State.reset meets State.Inv (its TABLE and WMAX are log entries 5 and 1; the clauses of the
invariant hold for any legal WMAX and say nothing of TABLE while TVALID = 0).
(70_reset_and_hazards.md R109; 10_state.md R26, R27) -/
def Obligations.ResetStateMeetsInvariant : Prop :=
  State.reset.Inv

/-- From every state that meets the invariant, a step that answers a next state answers one that
meets it: WMAX legal, CTRL's and TCTRL's reserved bits 0, TCTRL.WIDTH ≤ WMAX, R and RESULT below
2^WMAX, TABLE the table of TCFG while TVALID = 1, TCFG zero while TVALID = 0, and an error
record that is empty with ERR = 0 and has a code 1 to 5 with ERR = 1. (10_state.md R17, R23,
R24, R26, R27, R28; 60_exceptions.md R93) -/
def Obligations.StepKeepsInvariant : Prop :=
  ∀ s t : State, s.Inv → step s = .next t → t.Inv

/-- Whatever command runs: R changes only by the eight commands of R24, RESULT only by the seven of
R25, TABLE, TCFG and TVALID only by BUILD, a recorded error only by CLRERR, and no command
writes CTRL, POLY, INIT, XOROUT, ARG, TIDX, WMAX or the host's accesses and answers.
(10_state.md R21, R24, R25, R26, R27, R28; 60_exceptions.md R97) -/
def Obligations.OnlyNamedCommandsWrite : Prop :=
  ∀ (i : Instr) (s t : State), exec i s = .next t →
    (i.writesR = false → t.r = s.r) ∧ (i.writesResult = false → t.result = s.result) ∧
    (i ≠ .build → t.table = s.table ∧ t.tctrl = s.tctrl ∧ t.tpoly = s.tpoly ∧
      t.tinit = s.tinit ∧ t.txorout = s.txorout ∧ t.tvalid = s.tvalid) ∧
    (i ≠ .clrerr → s.err = true →
      t.err = true ∧ t.errcode = s.errcode ∧ t.errop = s.errop) ∧
    (t.ctrl = s.ctrl ∧ t.poly = s.poly ∧ t.init = s.init ∧ t.xorout = s.xorout ∧ t.arg = s.arg ∧
      t.tidx = s.tidx ∧ t.wmax = s.wmax ∧ t.pending = s.pending ∧ t.reads = s.reads)

/-- If a step changes TVALID from 0 to 1, the access it performed is a write of the word 0x08 to CMD
with CTRL.WIDTH ≤ WMAX; if it changes TVALID from 1 to 0, the access is the reset input.
(10_state.md R27) -/
def Obligations.TableValidOnlyByBuild : Prop :=
  ∀ s t : State, step s = .next t →
    (s.tvalid = false → t.tvalid = true →
      s.pending.head? = some (.write 0x28 0x08) ∧ s.cfg.width ≤ s.wmax) ∧
    (s.tvalid = true → t.tvalid = false → s.pending.head? = some .reset)

/-- With ERR = 1, a step that performs anything but a write of the word 0x3F to CMD or the reset
input keeps ERR, ERRCODE and ERROP as they are. (60_exceptions.md R97, R99) -/
def Obligations.RecordedErrorIsSticky : Prop :=
  ∀ s t : State, step s = .next t → s.err = true →
    s.pending.head? ≠ some (.write 0x28 0x3F) → s.pending.head? ≠ some .reset →
      t.err = true ∧ t.errcode = s.errcode ∧ t.errop = s.errop

/-- Whatever access a step performs, the parameter WMAX and the value a read of CAPS returns stay as
they were, and with a legal WMAX that value is WMAX in bits [6:0] with zeros above. (10_state.md
R31; 00_scope.md R5) -/
def Obligations.CapsIsHardwired : Prop :=
  ∀ s t : State, step s = .next t →
    t.wmax = s.wmax ∧ portRead 0x78 t = portRead 0x78 s ∧
      (s.wmax ≤ 64 → (portRead 0x78 t).toNat = s.wmax)

/-- A table command run after any change of CTRL, POLY, INIT and XOROUT answers the state it would
have answered without the change, with those four registers as changed. (42_table.md R66;
70_reset_and_hazards.md R113) -/
def Obligations.TableCommandsIgnoreLiveSet : Prop :=
  ∀ (i : Instr) (s t : State) (c p n x : Word), i.readsTcfg = true → exec i s = .next t →
    exec i { s with ctrl := c, poly := p, init := n, xorout := x } =
      .next { t with ctrl := c, poly := p, init := n, xorout := x }

/-- Two states with TVALID = 0 that differ only in the contents of TABLE stay so through any number
of steps until a BUILD makes them equal; the values returned to the host (in a list of the model's
own, log entry 3) are the same throughout. (70_reset_and_hazards.md R109; 10_state.md R28, R30) -/
def Obligations.TableHiddenBeforeBuild : Prop :=
  ∀ (k : Nat) (s t : State), s.tvalid = false → SameButTable s t →
    ∃ s' t' : State, Host.Core.run Sys2Proof.core k s = .next s' ∧
      Host.Core.run Sys2Proof.core k t = .next t' ∧ s'.reads = t'.reads ∧ SameButTable s' t' ∧
      (s'.tvalid = true → s' = t')

/-- In every state that meets the invariant with CTRL.WIDTH ≤ WMAX, for every sequence of bytes,
SEED, FEED of each byte, FIN and BUILD, TSEED, TFEED of each byte, TFIN both leave RESULT =
Finalize(CFG, fold of the bytes from init_e) and the same R; for no bytes that is the finalized
initial value. (44_dispatch.md R87, R88; 42_table.md R68) -/
def Obligations.CallShapesComputeTheSameCrc : Prop :=
  ∀ (s : State) (ds : List Nat), s.Inv → s.cfg.width ≤ s.wmax → (∀ d ∈ ds, d ≤ 255) →
    ∃ t u : State,
      performAll (callCmds [.seed] .feed ds [.fin]) s = .next t ∧
      performAll (callCmds [.build, .tseed] .tfeed ds [.tfin]) s = .next u ∧
      t.result = BitVec.ofNat 64 (finalize s.cfg (foldBuffer s.cfg s.cfg.initE ds)) ∧
      u.result = t.result ∧ u.r = t.r

/-- For every split of a sequence of bytes into two pieces, resuming from the RESULT of the first
piece and feeding the second leaves the RESULT that feeding the whole sequence leaves, with the
live set in every state that meets the invariant with CTRL.WIDTH ≤ WMAX, and with the table's
set in every such state with TVALID = 1. (44_dispatch.md R89; 43_finalize.md R72) -/
def Obligations.ChunkedCrcEqualsWhole : Prop :=
  ∀ (s : State) (ds es : List Nat), s.Inv → (∀ d ∈ ds ++ es, d ≤ 255) →
    (s.cfg.width ≤ s.wmax →
      ∃ t t1 t2 : State,
        performAll (callCmds [.seed] .feed (ds ++ es) [.fin]) s = .next t ∧
        performAll (callCmds [.seed] .feed ds [.fin]) s = .next t1 ∧
        performAll (.write 0x20 t1.result :: callCmds [.resume] .feed es [.fin]) t1 =
          .next t2 ∧ t2.result = t.result) ∧
    (s.tvalid = true →
      ∃ t t1 t2 : State,
        performAll (callCmds [.tseed] .tfeed (ds ++ es) [.tfin]) s = .next t ∧
        performAll (callCmds [.tseed] .tfeed ds [.tfin]) s = .next t1 ∧
        performAll (.write 0x20 t1.result :: callCmds [.tresume] .tfeed es [.tfin]) t1 =
          .next t2 ∧ t2.result = t.result)
end

