-- ==== Sys2Proof/Laws/Assembler.lean ====
section
/-! SUPPORT. How a list of numbers is read as the bytes and the numbers of a pseudo-instruction
(R54; log entries 13 and 17). -/

namespace Sys2Proof.Laws

open Sys2Proof.Machine

@[simp] theorem numbers_map_num (ns : List Nat) : numbers (ns.map .num) = some ns := by
  induction ns with
  | nil => rfl
  | cons n ns ih => simp [numbers, ih]

/-- A list is split before its last k numbers. -/
theorem bytesThen_list (k : Nat) (bytes ns : List Nat) (h : ns.length = k) :
    bytesThen k ((bytes ++ ns).map .num) = some (bytes, ns) := by
  have key : ∀ os : List Operand, (∀ cs os', os ≠ .text cs :: os') →
      numbers os = some (bytes ++ ns) → bytesThen k os = some (bytes, ns) := by
    intro os hos hn
    unfold bytesThen
    split
    · exact absurd rfl (hos _ _)
    · simp [hn, h]
  refine key _ ?_ (numbers_map_num _)
  intro cs os' e
  cases hl : bytes ++ ns <;> simp [hl] at e

/-- A string has as many numbers after it as the call takes. -/
theorem bytesThen_string (k : Nat) (text : List Char) (ns : List Nat) :
    bytesThen k (.text text :: ns.map .num) =
      if ns.length = k then some (asciiBytes text, ns) else none := by
  simp [bytesThen]

/-- A list that is just the bytes for nbits, and nbits after it, is read without a prior CRC. -/
theorem bitsPseudo_list (cs : List Char) (p : Pseudo) (bytes : List Nat) (n : Nat)
    (hc : bitsCall cs (bytes, [n]) = some p) (hn : bytes.length = (n + 7) / 8)
    (ha : p.accesses.isSome) : bitsPseudo cs ((bytes ++ [n]).map .num) = some p := by
  simp [bitsPseudo, bytesThen_list 1 bytes [n] rfl, holdsJust,
    hc, ha, hn, -List.map_append]

end Sys2Proof.Laws
end

