-- ==== Sys2Proof/Laws/Datapath.lean ====
section
/-! SUPPORT. The small lemmas of the datapath's definitions: masks, reflection's recursion, bounds
of the results, and reading a tabulated table. -/

namespace Sys2Proof.Machine

/-- Masking is reduction modulo a power of two (R9). -/
@[simp] theorem and_mask (x n : Nat) : x &&& mask n = x % 2 ^ n := by
  rw [mask, Nat.and_two_pow_sub_one_eq_mod]

/-- The bits of a mask (R9). -/
theorem testBit_mask (n i : Nat) : (mask n).testBit i = decide (i < n) := by
  simp [mask]

/-- Reflect over no bits is 0 (R55). -/
@[simp] theorem reflect_zero (v : Nat) : reflect v 0 = 0 := rfl

/-- One pass of Reflect's loop (R55). -/
theorem reflect_succ (v n : Nat) :
    reflect v (n + 1) = (reflect v n) <<< 1 ||| (v.testBit n).toNat := rfl

/-- Reflect over n bits stays below 2^n. -/
theorem reflect_lt (v n : Nat) : reflect v n < 2 ^ n := by
  induction n with
  | zero => simp
  | succ n ih =>
    rw [reflect_succ]
    refine Nat.or_lt_two_pow ?_ ?_
    · rw [Nat.shiftLeft_eq, Nat.pow_succ]; omega
    · refine Nat.lt_of_lt_of_le (Bool.toNat_lt _) ?_
      rw [Nat.pow_succ]; have := Nat.one_le_two_pow (n := n); omega

/-- BitFold's result is below 2^W (R59). -/
theorem bitFold_lt (P : ParamSet) (r b n : Nat) : bitFold P r b n < 2 ^ P.width := by
  have h : ∀ x, x &&& P.m < 2 ^ P.width := fun x => by
    rw [ParamSet.m, and_mask]; exact Nat.mod_lt _ (Nat.two_pow_pos _)
  unfold bitFold
  dsimp only
  split
  · exact h _
  · split <;> exact h _

/-- TableFold's result is below 2^W (R67). -/
theorem tableFold_lt (P : ParamSet) (t : Table) (r b : Nat) : tableFold P t r b < 2 ^ P.width := by
  have h : ∀ x, x &&& mask P.width < 2 ^ P.width := fun x => by
    rw [and_mask]; exact Nat.mod_lt _ (Nat.two_pow_pos _)
  unfold tableFold
  dsimp only
  split
  · exact h _
  · split <;> exact h _

/-- Finalize's result is below 2^W (R70). -/
theorem finalize_lt (P : ParamSet) (r : Nat) : finalize P r < 2 ^ P.width := by
  unfold finalize
  dsimp only
  rw [and_mask]
  exact Nat.mod_lt _ (Nat.two_pow_pos _)

/-- UndoFinalize's result is below 2^W (R71). -/
theorem undoFinalize_lt (P : ParamSet) (c : Nat) : undoFinalize P c < 2 ^ P.width := by
  unfold undoFinalize
  dsimp only
  split
  · exact reflect_lt _ _
  · rw [and_mask, and_mask]
    exact Nat.xor_lt_two_pow (Nat.mod_lt _ (Nat.two_pow_pos _)) (Nat.mod_lt _ (Nat.two_pow_pos _))

/-- The effective initial value is below 2^W (R16). -/
theorem initE_lt (P : ParamSet) : P.initE < 2 ^ P.width := by
  rw [ParamSet.initE, ParamSet.m, and_mask]
  exact Nat.mod_lt _ (Nat.two_pow_pos _)

/-- Entry b of a tabulated table (R65). -/
theorem entry_tabulate (f : Nat → Nat) {b : Nat} (h : b < 256) :
    (Table.tabulate f).entry b = f b % 2 ^ 64 := by
  have hb : b < ((List.range Config.tableEntries).map fun b => BitVec.ofNat 64 (f b)).length := by
    simpa [Config.tableEntries] using h
  rw [Table.entry, Table.tabulate, List.getD_eq_getElem _ _ hb]
  simp

/-- A width field holds at most 127 (R17). -/
theorem ctrlWidth_lt (c : Word) : ctrlWidth c < 128 := (c.extractLsb' 0 7).isLt

/-- The branchless inner step of case 1 gives the same value as the branching one (R59). -/
theorem stepRightBranchless_eq (p x : Nat) : stepRightBranchless p x = stepRight p x := by
  cases h : x.testBit 0 <;> simp [stepRightBranchless, stepRight, h]

/-- The branchless inner step of cases 2 and 3 gives the same value as the branching one (R59). -/
theorem stepLeftBranchless_eq (k p x : Nat) : stepLeftBranchless k p x = stepLeft k p x := by
  cases h : x.testBit k <;> simp [stepLeftBranchless, stepLeft, h]

/-- A buffer with no byte folds to the remainder itself (R87). -/
@[simp] theorem foldBuffer_nil (P : ParamSet) (r : Nat) : foldBuffer P r [] = r := rfl

/-- A buffer is folded byte by byte (R87). -/
@[simp] theorem foldBuffer_cons (P : ParamSet) (r b : Nat) (bs : List Nat) :
    foldBuffer P r (b :: bs) = foldBuffer P (bitFold P r b 8) bs := rfl

/-- Two buffers in a row fold like one (R87). -/
theorem foldBuffer_append (P : ParamSet) (r : Nat) (as bs : List Nat) :
    foldBuffer P r (as ++ bs) = foldBuffer P (foldBuffer P r as) bs := List.foldl_append

end Sys2Proof.Machine
end

