-- ==== Sys2Proof/Laws/State.lean ====
section
/-! SUPPORT. One lemma per field per update of the state, each true by definition, so that no later
proof unfolds a record update. -/

namespace Sys2Proof.Machine.State

variable (s : State)

section
variable (v : Word)
@[simp] theorem setR_ctrl : (s.setR v).ctrl = s.ctrl := rfl
@[simp] theorem setR_poly : (s.setR v).poly = s.poly := rfl
@[simp] theorem setR_init : (s.setR v).init = s.init := rfl
@[simp] theorem setR_xorout : (s.setR v).xorout = s.xorout := rfl
@[simp] theorem setR_arg : (s.setR v).arg = s.arg := rfl
@[simp] theorem setR_r : (s.setR v).r = v := rfl
@[simp] theorem setR_result : (s.setR v).result = s.result := rfl
@[simp] theorem setR_tctrl : (s.setR v).tctrl = s.tctrl := rfl
@[simp] theorem setR_tpoly : (s.setR v).tpoly = s.tpoly := rfl
@[simp] theorem setR_tinit : (s.setR v).tinit = s.tinit := rfl
@[simp] theorem setR_txorout : (s.setR v).txorout = s.txorout := rfl
@[simp] theorem setR_tvalid : (s.setR v).tvalid = s.tvalid := rfl
@[simp] theorem setR_table : (s.setR v).table = s.table := rfl
@[simp] theorem setR_tidx : (s.setR v).tidx = s.tidx := rfl
@[simp] theorem setR_err : (s.setR v).err = s.err := rfl
@[simp] theorem setR_errcode : (s.setR v).errcode = s.errcode := rfl
@[simp] theorem setR_errop : (s.setR v).errop = s.errop := rfl
@[simp] theorem setR_wmax : (s.setR v).wmax = s.wmax := rfl
@[simp] theorem setR_pending : (s.setR v).pending = s.pending := rfl
@[simp] theorem setR_reads : (s.setR v).reads = s.reads := rfl
end

section
variable (v : Word)
@[simp] theorem setResult_ctrl : (s.setResult v).ctrl = s.ctrl := rfl
@[simp] theorem setResult_poly : (s.setResult v).poly = s.poly := rfl
@[simp] theorem setResult_init : (s.setResult v).init = s.init := rfl
@[simp] theorem setResult_xorout : (s.setResult v).xorout = s.xorout := rfl
@[simp] theorem setResult_arg : (s.setResult v).arg = s.arg := rfl
@[simp] theorem setResult_r : (s.setResult v).r = s.r := rfl
@[simp] theorem setResult_result : (s.setResult v).result = v := rfl
@[simp] theorem setResult_tctrl : (s.setResult v).tctrl = s.tctrl := rfl
@[simp] theorem setResult_tpoly : (s.setResult v).tpoly = s.tpoly := rfl
@[simp] theorem setResult_tinit : (s.setResult v).tinit = s.tinit := rfl
@[simp] theorem setResult_txorout : (s.setResult v).txorout = s.txorout := rfl
@[simp] theorem setResult_tvalid : (s.setResult v).tvalid = s.tvalid := rfl
@[simp] theorem setResult_table : (s.setResult v).table = s.table := rfl
@[simp] theorem setResult_tidx : (s.setResult v).tidx = s.tidx := rfl
@[simp] theorem setResult_err : (s.setResult v).err = s.err := rfl
@[simp] theorem setResult_errcode : (s.setResult v).errcode = s.errcode := rfl
@[simp] theorem setResult_errop : (s.setResult v).errop = s.errop := rfl
@[simp] theorem setResult_wmax : (s.setResult v).wmax = s.wmax := rfl
@[simp] theorem setResult_pending : (s.setResult v).pending = s.pending := rfl
@[simp] theorem setResult_reads : (s.setResult v).reads = s.reads := rfl
end

section
variable (e : Bool) (c : BitVec 4) (o : BitVec 8)
@[simp] theorem setError_ctrl : (s.setError e c o).ctrl = s.ctrl := rfl
@[simp] theorem setError_poly : (s.setError e c o).poly = s.poly := rfl
@[simp] theorem setError_init : (s.setError e c o).init = s.init := rfl
@[simp] theorem setError_xorout : (s.setError e c o).xorout = s.xorout := rfl
@[simp] theorem setError_arg : (s.setError e c o).arg = s.arg := rfl
@[simp] theorem setError_r : (s.setError e c o).r = s.r := rfl
@[simp] theorem setError_result : (s.setError e c o).result = s.result := rfl
@[simp] theorem setError_tctrl : (s.setError e c o).tctrl = s.tctrl := rfl
@[simp] theorem setError_tpoly : (s.setError e c o).tpoly = s.tpoly := rfl
@[simp] theorem setError_tinit : (s.setError e c o).tinit = s.tinit := rfl
@[simp] theorem setError_txorout : (s.setError e c o).txorout = s.txorout := rfl
@[simp] theorem setError_tvalid : (s.setError e c o).tvalid = s.tvalid := rfl
@[simp] theorem setError_table : (s.setError e c o).table = s.table := rfl
@[simp] theorem setError_tidx : (s.setError e c o).tidx = s.tidx := rfl
@[simp] theorem setError_err : (s.setError e c o).err = e := rfl
@[simp] theorem setError_errcode : (s.setError e c o).errcode = c := rfl
@[simp] theorem setError_errop : (s.setError e c o).errop = o := rfl
@[simp] theorem setError_wmax : (s.setError e c o).wmax = s.wmax := rfl
@[simp] theorem setError_pending : (s.setError e c o).pending = s.pending := rfl
@[simp] theorem setError_reads : (s.setError e c o).reads = s.reads := rfl
end

section
variable (t : Table)
@[simp] theorem setTable_ctrl : (s.setTable t).ctrl = s.ctrl := rfl
@[simp] theorem setTable_poly : (s.setTable t).poly = s.poly := rfl
@[simp] theorem setTable_init : (s.setTable t).init = s.init := rfl
@[simp] theorem setTable_xorout : (s.setTable t).xorout = s.xorout := rfl
@[simp] theorem setTable_arg : (s.setTable t).arg = s.arg := rfl
@[simp] theorem setTable_r : (s.setTable t).r = s.r := rfl
@[simp] theorem setTable_result : (s.setTable t).result = s.result := rfl
@[simp] theorem setTable_tctrl : (s.setTable t).tctrl = s.ctrl := rfl
@[simp] theorem setTable_tpoly : (s.setTable t).tpoly = s.poly := rfl
@[simp] theorem setTable_tinit : (s.setTable t).tinit = s.init := rfl
@[simp] theorem setTable_txorout : (s.setTable t).txorout = s.xorout := rfl
@[simp] theorem setTable_tvalid : (s.setTable t).tvalid = true := rfl
@[simp] theorem setTable_table : (s.setTable t).table = t := rfl
@[simp] theorem setTable_tidx : (s.setTable t).tidx = s.tidx := rfl
@[simp] theorem setTable_err : (s.setTable t).err = s.err := rfl
@[simp] theorem setTable_errcode : (s.setTable t).errcode = s.errcode := rfl
@[simp] theorem setTable_errop : (s.setTable t).errop = s.errop := rfl
@[simp] theorem setTable_wmax : (s.setTable t).wmax = s.wmax := rfl
@[simp] theorem setTable_pending : (s.setTable t).pending = s.pending := rfl
@[simp] theorem setTable_reads : (s.setTable t).reads = s.reads := rfl
end

section
variable (as : List Access)
@[simp] theorem setPending_ctrl : (s.setPending as).ctrl = s.ctrl := rfl
@[simp] theorem setPending_poly : (s.setPending as).poly = s.poly := rfl
@[simp] theorem setPending_init : (s.setPending as).init = s.init := rfl
@[simp] theorem setPending_xorout : (s.setPending as).xorout = s.xorout := rfl
@[simp] theorem setPending_arg : (s.setPending as).arg = s.arg := rfl
@[simp] theorem setPending_r : (s.setPending as).r = s.r := rfl
@[simp] theorem setPending_result : (s.setPending as).result = s.result := rfl
@[simp] theorem setPending_tctrl : (s.setPending as).tctrl = s.tctrl := rfl
@[simp] theorem setPending_tpoly : (s.setPending as).tpoly = s.tpoly := rfl
@[simp] theorem setPending_tinit : (s.setPending as).tinit = s.tinit := rfl
@[simp] theorem setPending_txorout : (s.setPending as).txorout = s.txorout := rfl
@[simp] theorem setPending_tvalid : (s.setPending as).tvalid = s.tvalid := rfl
@[simp] theorem setPending_table : (s.setPending as).table = s.table := rfl
@[simp] theorem setPending_tidx : (s.setPending as).tidx = s.tidx := rfl
@[simp] theorem setPending_err : (s.setPending as).err = s.err := rfl
@[simp] theorem setPending_errcode : (s.setPending as).errcode = s.errcode := rfl
@[simp] theorem setPending_errop : (s.setPending as).errop = s.errop := rfl
@[simp] theorem setPending_wmax : (s.setPending as).wmax = s.wmax := rfl
@[simp] theorem setPending_pending : (s.setPending as).pending = as := rfl
@[simp] theorem setPending_reads : (s.setPending as).reads = s.reads := rfl
end

section
variable (v : Word)
@[simp] theorem pushRead_ctrl : (s.pushRead v).ctrl = s.ctrl := rfl
@[simp] theorem pushRead_poly : (s.pushRead v).poly = s.poly := rfl
@[simp] theorem pushRead_init : (s.pushRead v).init = s.init := rfl
@[simp] theorem pushRead_xorout : (s.pushRead v).xorout = s.xorout := rfl
@[simp] theorem pushRead_arg : (s.pushRead v).arg = s.arg := rfl
@[simp] theorem pushRead_r : (s.pushRead v).r = s.r := rfl
@[simp] theorem pushRead_result : (s.pushRead v).result = s.result := rfl
@[simp] theorem pushRead_tctrl : (s.pushRead v).tctrl = s.tctrl := rfl
@[simp] theorem pushRead_tpoly : (s.pushRead v).tpoly = s.tpoly := rfl
@[simp] theorem pushRead_tinit : (s.pushRead v).tinit = s.tinit := rfl
@[simp] theorem pushRead_txorout : (s.pushRead v).txorout = s.txorout := rfl
@[simp] theorem pushRead_tvalid : (s.pushRead v).tvalid = s.tvalid := rfl
@[simp] theorem pushRead_table : (s.pushRead v).table = s.table := rfl
@[simp] theorem pushRead_tidx : (s.pushRead v).tidx = s.tidx := rfl
@[simp] theorem pushRead_err : (s.pushRead v).err = s.err := rfl
@[simp] theorem pushRead_errcode : (s.pushRead v).errcode = s.errcode := rfl
@[simp] theorem pushRead_errop : (s.pushRead v).errop = s.errop := rfl
@[simp] theorem pushRead_wmax : (s.pushRead v).wmax = s.wmax := rfl
@[simp] theorem pushRead_pending : (s.pushRead v).pending = s.pending := rfl
@[simp] theorem pushRead_reads : (s.pushRead v).reads = v :: s.reads := rfl
end

/-- Putting back the accesses that are pending changes nothing. -/
@[simp] theorem setPending_self : s.setPending s.pending = s := rfl

end Sys2Proof.Machine.State
end

