-- ==== Sys2Proof/Laws/Ops.lean ====
section
/-! SUPPORT. One specification lemma per shared operation: everything it can do, said once. -/

namespace Sys2Proof.Machine

variable {s t : State}

/-! Refusing a command. -/

/-- With a recorded error a refusal changes nothing. -/
theorem cmdError_of_err (e : CmdError) (op : BitVec 8) (h : s.err = true) :
    cmdError e op s = s := by simp [cmdError, recordError, h]

/-- With no recorded error a refusal records its code and the opcode. -/
theorem cmdError_of_clear (e : CmdError) (op : BitVec 8) (h : s.err = false) :
    cmdError e op s = s.setError true e.code op := by simp [cmdError, recordError, h]

/-- A refusal is a write of the error record, whichever case holds. -/
theorem cmdError_eq_setError (e : CmdError) (op : BitVec 8) (s : State) :
    ∃ b c o, cmdError e op s = s.setError b c o := by
  cases h : s.err with
  | true => exact ⟨s.err, s.errcode, s.errop, by rw [cmdError_of_err e op h]; rfl⟩
  | false => exact ⟨true, e.code, op, cmdError_of_clear e op h⟩

/-- After a refusal an error stands recorded. -/
@[simp] theorem cmdError_err (e : CmdError) (op : BitVec 8) (s : State) :
    (cmdError e op s).err = true := by
  cases h : s.err with
  | true => rw [cmdError_of_err e op h, h]
  | false => rw [cmdError_of_clear e op h]; rfl

section
variable (e : CmdError) (op : BitVec 8) (s : State)

/-- A function of the state that the error record does not enter is unchanged by a refusal. -/
theorem cmdError_unchanged {α : Type} (f : State → α)
    (h : ∀ b c o, f (s.setError b c o) = f s) : f (cmdError e op s) = f s := by
  obtain ⟨b, c, o, hs⟩ := cmdError_eq_setError e op s
  rw [hs, h]

@[simp] theorem cmdError_ctrl : (cmdError e op s).ctrl = s.ctrl :=
  cmdError_unchanged e op s State.ctrl fun _ _ _ => rfl
@[simp] theorem cmdError_poly : (cmdError e op s).poly = s.poly :=
  cmdError_unchanged e op s State.poly fun _ _ _ => rfl
@[simp] theorem cmdError_init : (cmdError e op s).init = s.init :=
  cmdError_unchanged e op s State.init fun _ _ _ => rfl
@[simp] theorem cmdError_xorout : (cmdError e op s).xorout = s.xorout :=
  cmdError_unchanged e op s State.xorout fun _ _ _ => rfl
@[simp] theorem cmdError_arg : (cmdError e op s).arg = s.arg :=
  cmdError_unchanged e op s State.arg fun _ _ _ => rfl
@[simp] theorem cmdError_r : (cmdError e op s).r = s.r :=
  cmdError_unchanged e op s State.r fun _ _ _ => rfl
@[simp] theorem cmdError_result : (cmdError e op s).result = s.result :=
  cmdError_unchanged e op s State.result fun _ _ _ => rfl
@[simp] theorem cmdError_tctrl : (cmdError e op s).tctrl = s.tctrl :=
  cmdError_unchanged e op s State.tctrl fun _ _ _ => rfl
@[simp] theorem cmdError_tpoly : (cmdError e op s).tpoly = s.tpoly :=
  cmdError_unchanged e op s State.tpoly fun _ _ _ => rfl
@[simp] theorem cmdError_tinit : (cmdError e op s).tinit = s.tinit :=
  cmdError_unchanged e op s State.tinit fun _ _ _ => rfl
@[simp] theorem cmdError_txorout : (cmdError e op s).txorout = s.txorout :=
  cmdError_unchanged e op s State.txorout fun _ _ _ => rfl
@[simp] theorem cmdError_tvalid : (cmdError e op s).tvalid = s.tvalid :=
  cmdError_unchanged e op s State.tvalid fun _ _ _ => rfl
@[simp] theorem cmdError_table : (cmdError e op s).table = s.table :=
  cmdError_unchanged e op s State.table fun _ _ _ => rfl
@[simp] theorem cmdError_tidx : (cmdError e op s).tidx = s.tidx :=
  cmdError_unchanged e op s State.tidx fun _ _ _ => rfl
@[simp] theorem cmdError_wmax : (cmdError e op s).wmax = s.wmax :=
  cmdError_unchanged e op s State.wmax fun _ _ _ => rfl
@[simp] theorem cmdError_pending : (cmdError e op s).pending = s.pending :=
  cmdError_unchanged e op s State.pending fun _ _ _ => rfl
@[simp] theorem cmdError_reads : (cmdError e op s).reads = s.reads :=
  cmdError_unchanged e op s State.reads fun _ _ _ => rfl
@[simp] theorem cmdError_cfg : (cmdError e op s).cfg = s.cfg :=
  cmdError_unchanged e op s State.cfg fun _ _ _ => rfl
@[simp] theorem cmdError_tcfg : (cmdError e op s).tcfg = s.tcfg :=
  cmdError_unchanged e op s State.tcfg fun _ _ _ => rfl
end

/-! The checks on the parameter sets. -/

/-- A command on the live set has its effect when CTRL.WIDTH ≤ WMAX. -/
theorem onCfg_of_le (i : Instr) (f : ParamSet → State) (h : s.cfg.width ≤ s.wmax) :
    onCfg i s f = .next (f s.cfg) := by simp [onCfg, Nat.not_lt.mpr h]

/-- A command on the live set is refused with code 3 when CTRL.WIDTH > WMAX. -/
theorem onCfg_of_lt (i : Instr) (f : ParamSet → State) (h : s.wmax < s.cfg.width) :
    onCfg i s f = .next (cmdError .width i.opcode s) := by simp [onCfg, h]

/-- A table command has its effect when a table exists. -/
theorem onTcfg_of_valid (i : Instr) (f : ParamSet → State) (h : s.tvalid = true) :
    onTcfg i s f = .next (f s.tcfg) := by simp [onTcfg, h]

/-- A table command is refused with code 4 while no table exists. -/
theorem onTcfg_of_invalid (i : Instr) (f : ParamSet → State) (h : s.tvalid = false) :
    onTcfg i s f = .next (cmdError .notable i.opcode s) := by simp [onTcfg, h]

/-- Everything a command on the live set can do. -/
theorem onCfg_cases {i : Instr} {f : ParamSet → State} (h : onCfg i s f = .next t) :
    (s.cfg.width ≤ s.wmax ∧ t = f s.cfg) ∨
      (s.wmax < s.cfg.width ∧ t = cmdError .width i.opcode s) := by
  rcases Nat.lt_or_ge s.wmax s.cfg.width with hw | hw
  · exact .inr ⟨hw, by simpa [onCfg_of_lt i f hw] using h.symm⟩
  · exact .inl ⟨hw, by simpa [onCfg_of_le i f hw] using h.symm⟩

/-- Everything a table command can do. -/
theorem onTcfg_cases {i : Instr} {f : ParamSet → State} (h : onTcfg i s f = .next t) :
    (s.tvalid = true ∧ t = f s.tcfg) ∨
      (s.tvalid = false ∧ t = cmdError .notable i.opcode s) := by
  cases hv : s.tvalid with
  | true => exact .inl ⟨rfl, by simpa [onTcfg_of_valid i f hv] using h.symm⟩
  | false => exact .inr ⟨rfl, by simpa [onTcfg_of_invalid i f hv] using h.symm⟩

/-- Everything REFL can do. -/
theorem execRefl_cases {n : Nat} (h : execRefl n s = .next t) :
    (n ≤ s.wmax ∧ t = writeResult (reflect s.arg.toNat n) s) ∨
      (s.wmax < n ∧ t = cmdError .range 0x20 s) := by
  rcases Nat.lt_or_ge s.wmax n with hn | hn
  · exact .inr ⟨hn, by simpa [execRefl, hn, Instr.opcode] using h.symm⟩
  · exact .inl ⟨hn, by simpa [execRefl, Nat.not_lt.mpr hn] using h.symm⟩

/-! The register port. -/

/-- Offset and register name each other (R35). -/
@[simp] theorem ofOffset_offset (reg : PortReg) : PortReg.ofOffset reg.offset = some reg := by
  cases reg <;> rfl

/-- A read of a mapped offset is a read of its register. -/
@[simp] theorem portRead_offset (reg : PortReg) (s : State) :
    portRead reg.offset s = readReg reg s := by simp [portRead]

/-- A write to CMD runs the command word. -/
@[simp] theorem portWrite_cmd (v : Word) (s : State) :
    portWrite PortReg.cmd.offset v s = execute v s := by simp [portWrite]

/-- A write to a register other than CMD is a write of that register alone. -/
theorem portWrite_of_ne_cmd {reg : PortReg} (h : reg ≠ .cmd) (v : Word) (s : State) :
    portWrite reg.offset v s = .next (writeReg reg v s) := by
  cases reg <;> first | exact absurd rfl h | rfl

/-- The access of a command word runs it. -/
@[simp] theorem perform_cmdAccess (v : Word) (s : State) :
    perform (cmdAccess v) s = execute v s := portWrite_cmd v s

/-- A word that decodes runs its command. -/
theorem execute_of_decode {v : Word} {i : Instr} (h : decode v = .ok i) (s : State) :
    execute v s = exec i s := by simp [execute, h]

/-- A word that does not decode is refused. -/
theorem execute_of_error {v : Word} {e : CmdError} (h : decode v = .error e) (s : State) :
    execute v s = .next (cmdError e (opField v) s) := by simp [execute, h]

/-- A step performs the first pending access. -/
theorem step_of_pending {a : Access} {as : List Access} (h : s.pending = a :: as) :
    step s = perform a (s.setPending as) := by simp [step, stepPending, h]

/-- With nothing pending a step changes nothing. -/
theorem step_of_idle (h : s.pending = []) : step s = .next s := by simp [step, stepPending, h]

/-- Everything a step can do: idle, or perform the first pending access. -/
theorem step_cases (h : step s = .next t) :
    (s.pending = [] ∧ t = s) ∨
      ∃ a as, s.pending = a :: as ∧ perform a (s.setPending as) = .next t := by
  cases hp : s.pending with
  | nil => rw [step_of_idle hp] at h; cases h; exact .inl ⟨rfl, rfl⟩
  | cons a as => exact .inr ⟨a, as, rfl, by rw [← step_of_pending hp]; exact h⟩

/-- An offset that reaches a register is that register's (R35). -/
theorem offset_of_ofOffset {off : Nat} {reg : PortReg} (h : PortReg.ofOffset off = some reg) :
    reg.offset = off := by
  revert h
  unfold PortReg.ofOffset
  split <;> simp <;> rintro rfl <;> rfl

/-- Everything an access can do: answer a read, reset the engine, write nothing or one register
other than CMD, have its command word refused, or run its command. -/
theorem perform_cases {a : Access} (h : perform a s = .next t) :
    (∃ off, a = .read off ∧ t = s.pushRead (portRead off s)) ∨
    (a = .reset ∧ t = resetEngine s) ∨
    (∃ off v, a = .write off v ∧ off ≠ PortReg.cmd.offset ∧
      (t = s ∨ ∃ reg, reg ≠ PortReg.cmd ∧ reg.offset = off ∧ t = writeReg reg v s)) ∨
    (∃ v e, a = cmdAccess v ∧ decode v = .error e ∧ t = cmdError e (opField v) s) ∨
    (∃ v i, a = cmdAccess v ∧ decode v = .ok i ∧ exec i s = .next t) := by
  cases a with
  | read off => cases h; exact .inl ⟨off, rfl, rfl⟩
  | reset => cases h; exact .inr (.inl ⟨rfl, rfl⟩)
  | write off v =>
    by_cases ho : off = PortReg.cmd.offset
    · subst ho
      rw [perform, portWrite_cmd] at h
      cases hd : decode v with
      | error e =>
        rw [execute_of_error hd] at h; cases h
        exact .inr (.inr (.inr (.inl ⟨v, e, rfl, hd, rfl⟩)))
      | ok i =>
        rw [execute_of_decode hd] at h
        exact .inr (.inr (.inr (.inr ⟨v, i, rfl, hd, h⟩)))
    · refine .inr (.inr (.inl ⟨off, v, rfl, ho, ?_⟩))
      cases hr : PortReg.ofOffset off with
      | none => simp only [perform, portWrite, hr] at h; cases h; exact .inl rfl
      | some reg =>
        have hoff := offset_of_ofOffset hr
        have hne : reg ≠ .cmd := by rintro rfl; exact ho hoff.symm
        subst hoff
        rw [perform, portWrite_of_ne_cmd hne] at h
        cases h
        exact .inr ⟨reg, hne, rfl, rfl⟩

/-- Performing a sequence: the first access, then the rest. -/
theorem performAll_cons_of_next {a : Access} (h : perform a s = .next t) (as : List Access) :
    performAll (a :: as) s = performAll as t := by simp [performAll, h]

/-- Two sequences performed one after the other. -/
theorem performAll_append_of_next {as : List Access} (h : performAll as s = .next t)
    (bs : List Access) : performAll (as ++ bs) s = performAll bs t := by
  induction as generalizing s with
  | nil => simp only [performAll] at h; cases h; rfl
  | cons a as ih =>
    simp only [List.cons_append, performAll] at h ⊢
    cases ha : perform a s with
    | next u => rw [ha] at h; exact ih h
    | fault f => exact nomatch f
    | refused f => rw [ha] at h; cases h

end Sys2Proof.Machine
end

