-- ==== Sys2Proof/Laws/Exec.lean ====
section
/-! SUPPORT. What exec is for each command, and one inversion lemma that says everything exec can do:
later proofs cite it instead of taking the eighteen arms apart. -/

namespace Sys2Proof.Machine

section
variable (s : State) (d nb n : Nat)

theorem exec_nop : exec .nop s = .next s := rfl
theorem exec_clrerr : exec .clrerr s = .next (s.setError false 0 0) := rfl
theorem exec_refl : exec (.refl n) s = execRefl n s := rfl
theorem exec_seed : exec .seed s = onCfg .seed s fun P => writeR P.initE s := rfl
theorem exec_resume : exec .resume s = onCfg .resume s fun P => writeR (undoFinalize P s.arg.toNat) s := rfl
theorem exec_feed : exec (.feed d) s = onCfg (.feed d) s fun P => writeR (bitFold P s.r.toNat d 8) s := rfl
theorem exec_feedbits : exec (.feedbits d nb) s = onCfg (.feedbits d nb) s fun P => writeR (bitFold P s.r.toNat d nb) s := rfl
theorem exec_fin : exec .fin s = onCfg .fin s fun P => writeResult (finalize P s.r.toNat) s := rfl
theorem exec_unfin :
    exec .unfin s = onCfg .unfin s fun P => writeResult (undoFinalize P s.arg.toNat) s := rfl
theorem exec_finx : exec .finx s = onCfg .finx s fun P => writeResult (finalize P s.arg.toNat) s := rfl
theorem exec_build : exec .build s = onCfg .build s fun P => s.setTable (buildTable P) := rfl
theorem exec_tseed : exec .tseed s = onTcfg .tseed s fun P => writeR P.initE s := rfl
theorem exec_tresume : exec .tresume s = onTcfg .tresume s fun P => writeR (undoFinalize P s.arg.toNat) s := rfl
theorem exec_tfeed :
    exec (.tfeed d) s = onTcfg (.tfeed d) s fun P => writeR (tableFold P s.table s.r.toNat d) s := rfl
theorem exec_tfeedbits : exec (.tfeedbits d nb) s = onTcfg (.tfeedbits d nb) s fun P => writeR (bitFold P s.r.toNat d nb) s := rfl
theorem exec_tfin : exec .tfin s = onTcfg .tfin s fun P => writeResult (finalize P s.r.toNat) s := rfl
theorem exec_tunfin :
    exec .tunfin s = onTcfg .tunfin s fun P => writeResult (undoFinalize P s.arg.toNat) s := rfl
theorem exec_tfinx : exec .tfinx s = onTcfg .tfinx s fun P => writeResult (finalize P s.arg.toNat) s := rfl
end

variable {i : Instr} {s t : State}

/-- The parameter set a command reads, where its check lets it perform: CFG with CTRL.WIDTH ≤ WMAX
for a command on the live set, TCFG with TVALID = 1 for a table command (R95). -/
def SetRead (i : Instr) (s : State) (P : ParamSet) : Prop :=
  (P = s.cfg ∧ s.cfg.width ≤ s.wmax ∧ i.readsCfg = true) ∨
    (P = s.tcfg ∧ s.tvalid = true ∧ i.readsTcfg = true)

/-- Everything a command can do: nothing, record a refusal, clear the record, write R with a value
below 2^W of the set it reads, write RESULT with such a value (REFL: below 2^N, N ≤ WMAX), or build
the table. -/
theorem exec_cases (h : exec i s = .next t) :
    (i = .nop ∧ t = s) ∨
    (∃ e, t = cmdError e i.opcode s) ∨
    (i = .clrerr ∧ t = s.setError false 0 0) ∨
    (i.writesR = true ∧ ∃ P v, SetRead i s P ∧ v < 2 ^ P.width ∧ t = writeR v s) ∨
    (i.writesResult = true ∧ ∃ P v, SetRead i s P ∧ v < 2 ^ P.width ∧ t = writeResult v s) ∨
    (∃ n, i = .refl n ∧ n ≤ s.wmax ∧ t = writeResult (reflect s.arg.toNat n) s) ∨
    (i = .build ∧ s.cfg.width ≤ s.wmax ∧ t = s.setTable (buildTable s.cfg)) := by
  have onR : ∀ {v : ParamSet → Nat}, i.writesR = true → (∀ P, v P < 2 ^ P.width) →
      ∀ {P}, SetRead i s P → t = writeR (v P) s →
      i.writesR = true ∧ ∃ P v, SetRead i s P ∧ v < 2 ^ P.width ∧ t = writeR v s :=
    fun hw hb _ hP ht => ⟨hw, _, _, hP, hb _, ht⟩
  have onResult : ∀ {v : ParamSet → Nat}, i.writesResult = true → (∀ P, v P < 2 ^ P.width) →
      ∀ {P}, SetRead i s P → t = writeResult (v P) s →
      i.writesResult = true ∧ ∃ P v, SetRead i s P ∧ v < 2 ^ P.width ∧ t = writeResult v s :=
    fun hw hb _ hP ht => ⟨hw, _, _, hP, hb _, ht⟩
  cases i with
  | nop => exact .inl ⟨rfl, by simpa [exec_nop] using h.symm⟩
  | clrerr => exact .inr (.inr (.inl ⟨rfl, by simpa [exec_clrerr] using h.symm⟩))
  | refl n =>
    rcases execRefl_cases h with ⟨hn, ht⟩ | ⟨-, ht⟩
    · exact .inr (.inr (.inr (.inr (.inr (.inl ⟨n, rfl, hn, ht⟩)))))
    · exact .inr (.inl ⟨_, ht⟩)
  | build =>
    rw [exec_build] at h
    rcases onCfg_cases h with ⟨hw, ht⟩ | ⟨-, ht⟩
    · exact .inr (.inr (.inr (.inr (.inr (.inr ⟨rfl, hw, ht⟩)))))
    · exact .inr (.inl ⟨_, ht⟩)
  | seed =>
    rw [exec_seed] at h
    rcases onCfg_cases h with ⟨hw, ht⟩ | ⟨-, ht⟩
    · exact .inr (.inr (.inr (.inl (onR rfl (initE_lt) (.inl ⟨rfl, hw, rfl⟩) ht))))
    · exact .inr (.inl ⟨_, ht⟩)
  | resume =>
    rw [exec_resume] at h
    rcases onCfg_cases h with ⟨hw, ht⟩ | ⟨-, ht⟩
    · exact .inr (.inr (.inr (.inl (onR rfl (fun P => undoFinalize_lt P _) (.inl ⟨rfl, hw, rfl⟩) ht))))
    · exact .inr (.inl ⟨_, ht⟩)
  | feed d =>
    rw [exec_feed] at h
    rcases onCfg_cases h with ⟨hw, ht⟩ | ⟨-, ht⟩
    · exact .inr (.inr (.inr (.inl (onR rfl (fun P => bitFold_lt P _ _ _) (.inl ⟨rfl, hw, rfl⟩) ht))))
    · exact .inr (.inl ⟨_, ht⟩)
  | feedbits d nb =>
    rw [exec_feedbits] at h
    rcases onCfg_cases h with ⟨hw, ht⟩ | ⟨-, ht⟩
    · exact .inr (.inr (.inr (.inl (onR rfl (fun P => bitFold_lt P _ _ _) (.inl ⟨rfl, hw, rfl⟩) ht))))
    · exact .inr (.inl ⟨_, ht⟩)
  | fin =>
    rw [exec_fin] at h
    rcases onCfg_cases h with ⟨hw, ht⟩ | ⟨-, ht⟩
    · exact .inr (.inr (.inr (.inr (.inl (onResult rfl (fun P => finalize_lt P _) (.inl ⟨rfl, hw, rfl⟩) ht)))))
    · exact .inr (.inl ⟨_, ht⟩)
  | unfin =>
    rw [exec_unfin] at h
    rcases onCfg_cases h with ⟨hw, ht⟩ | ⟨-, ht⟩
    · exact .inr (.inr (.inr (.inr (.inl (onResult rfl (fun P => undoFinalize_lt P _) (.inl ⟨rfl, hw, rfl⟩) ht)))))
    · exact .inr (.inl ⟨_, ht⟩)
  | finx =>
    rw [exec_finx] at h
    rcases onCfg_cases h with ⟨hw, ht⟩ | ⟨-, ht⟩
    · exact .inr (.inr (.inr (.inr (.inl (onResult rfl (fun P => finalize_lt P _) (.inl ⟨rfl, hw, rfl⟩) ht)))))
    · exact .inr (.inl ⟨_, ht⟩)
  | tseed =>
    rw [exec_tseed] at h
    rcases onTcfg_cases h with ⟨hw, ht⟩ | ⟨-, ht⟩
    · exact .inr (.inr (.inr (.inl (onR rfl (initE_lt) (.inr ⟨rfl, hw, rfl⟩) ht))))
    · exact .inr (.inl ⟨_, ht⟩)
  | tresume =>
    rw [exec_tresume] at h
    rcases onTcfg_cases h with ⟨hw, ht⟩ | ⟨-, ht⟩
    · exact .inr (.inr (.inr (.inl (onR rfl (fun P => undoFinalize_lt P _) (.inr ⟨rfl, hw, rfl⟩) ht))))
    · exact .inr (.inl ⟨_, ht⟩)
  | tfeed d =>
    rw [exec_tfeed] at h
    rcases onTcfg_cases h with ⟨hw, ht⟩ | ⟨-, ht⟩
    · exact .inr (.inr (.inr (.inl (onR rfl (fun P => tableFold_lt P _ _ _) (.inr ⟨rfl, hw, rfl⟩) ht))))
    · exact .inr (.inl ⟨_, ht⟩)
  | tfeedbits d nb =>
    rw [exec_tfeedbits] at h
    rcases onTcfg_cases h with ⟨hw, ht⟩ | ⟨-, ht⟩
    · exact .inr (.inr (.inr (.inl (onR rfl (fun P => bitFold_lt P _ _ _) (.inr ⟨rfl, hw, rfl⟩) ht))))
    · exact .inr (.inl ⟨_, ht⟩)
  | tfin =>
    rw [exec_tfin] at h
    rcases onTcfg_cases h with ⟨hw, ht⟩ | ⟨-, ht⟩
    · exact .inr (.inr (.inr (.inr (.inl (onResult rfl (fun P => finalize_lt P _) (.inr ⟨rfl, hw, rfl⟩) ht)))))
    · exact .inr (.inl ⟨_, ht⟩)
  | tunfin =>
    rw [exec_tunfin] at h
    rcases onTcfg_cases h with ⟨hw, ht⟩ | ⟨-, ht⟩
    · exact .inr (.inr (.inr (.inr (.inl (onResult rfl (fun P => undoFinalize_lt P _) (.inr ⟨rfl, hw, rfl⟩) ht)))))
    · exact .inr (.inl ⟨_, ht⟩)
  | tfinx =>
    rw [exec_tfinx] at h
    rcases onTcfg_cases h with ⟨hw, ht⟩ | ⟨-, ht⟩
    · exact .inr (.inr (.inr (.inr (.inl (onResult rfl (fun P => finalize_lt P _) (.inr ⟨rfl, hw, rfl⟩) ht)))))
    · exact .inr (.inl ⟨_, ht⟩)

end Sys2Proof.Machine
end

