-- ==== Sys2Proof/Laws/PerInstr.lean ====
section
/-! SUPPORT. Facts about every command as text, one lemma per constructor. The family OpcodeByte: a
well-formed command's word carries its opcode in v[7:0] and stays below 2^23, so that every bit
above the operand fields is 0 (R47, R48). -/

namespace Sys2Proof.Laws.OpcodeByte

/-- The low byte of the word is the opcode, and no bit from 23 up is set. -/
def Statement (i : Instr) : Prop :=
  i.WellFormed → opField (encode i) = i.opcode ∧ (encode i).toNat < 2 ^ 23

/-- The statement of a command whose operand bits are a multiple of 256 below 2^23. -/
theorem of_operandBits {i : Instr} {k : Nat} (hk : i.operandBits = k * 2 ^ 8)
    (h : k < 2 ^ 15) : opField (encode i) = i.opcode ∧ (encode i).toNat < 2 ^ 23 := by
  have hop := i.opcode.isLt
  have hor : i.opcode.toNat ||| i.operandBits = k * 2 ^ 8 + i.opcode.toNat := by
    rw [hk, Nat.or_comm, Nat.mul_comm, Nat.two_pow_add_eq_or_of_lt hop]
  have hnat : (encode i).toNat = k * 2 ^ 8 + i.opcode.toNat := by
    rw [encode, hor, BitVec.toNat_ofNat]; omega
  refine ⟨BitVec.eq_of_toNat_eq ?_, by omega⟩
  rw [opField, BitVec.extractLsb'_toNat, hnat]
  simp only [Nat.shiftRight_zero]
  omega

/-- The two operand fields of format K side by side. -/
theorem operandBits_k {data nb : Nat} (h : data ≤ 255) :
    data <<< 8 ||| nb <<< 16 = (nb * 2 ^ 8 + data) * 2 ^ 8 := by
  have hd : data <<< 8 < 2 ^ 16 := by rw [Nat.shiftLeft_eq]; omega
  rw [Nat.or_comm, Nat.shiftLeft_eq nb, Nat.mul_comm nb, ← Nat.two_pow_add_eq_or_of_lt hd,
    Nat.shiftLeft_eq]
  omega

theorem nop : Statement .nop := fun _ => of_operandBits (k := 0) rfl (by decide)
theorem seed : Statement .seed := fun _ => of_operandBits (k := 0) rfl (by decide)
theorem resume : Statement .resume := fun _ => of_operandBits (k := 0) rfl (by decide)
theorem fin : Statement .fin := fun _ => of_operandBits (k := 0) rfl (by decide)
theorem unfin : Statement .unfin := fun _ => of_operandBits (k := 0) rfl (by decide)
theorem finx : Statement .finx := fun _ => of_operandBits (k := 0) rfl (by decide)
theorem build : Statement .build := fun _ => of_operandBits (k := 0) rfl (by decide)
theorem tseed : Statement .tseed := fun _ => of_operandBits (k := 0) rfl (by decide)
theorem tresume : Statement .tresume := fun _ => of_operandBits (k := 0) rfl (by decide)
theorem tfin : Statement .tfin := fun _ => of_operandBits (k := 0) rfl (by decide)
theorem tunfin : Statement .tunfin := fun _ => of_operandBits (k := 0) rfl (by decide)
theorem tfinx : Statement .tfinx := fun _ => of_operandBits (k := 0) rfl (by decide)
theorem clrerr : Statement .clrerr := fun _ => of_operandBits (k := 0) rfl (by decide)

theorem feed (data : Nat) : Statement (.feed data) := fun h =>
  of_operandBits (k := data) (Nat.shiftLeft_eq data 8)
    (by simp [Instr.WellFormed, Instr.wellFormed] at h; omega)

theorem tfeed (data : Nat) : Statement (.tfeed data) := fun h =>
  of_operandBits (k := data) (Nat.shiftLeft_eq data 8)
    (by simp [Instr.WellFormed, Instr.wellFormed] at h; omega)

theorem feedbits (data nb : Nat) : Statement (.feedbits data nb) := fun h => by
  simp only [Instr.WellFormed, Instr.wellFormed, Bool.and_eq_true, decide_eq_true_eq] at h
  exact of_operandBits (k := nb * 2 ^ 8 + data) (operandBits_k h.1) (by omega)

theorem tfeedbits (data nb : Nat) : Statement (.tfeedbits data nb) := fun h => by
  simp only [Instr.WellFormed, Instr.wellFormed, Bool.and_eq_true, decide_eq_true_eq] at h
  exact of_operandBits (k := nb * 2 ^ 8 + data) (operandBits_k h.1) (by omega)

theorem refl (n : Nat) : Statement (.refl n) := fun h =>
  of_operandBits (k := n * 2 ^ 8)
    (by rw [Instr.operandBits, Nat.shiftLeft_eq]; omega)
    (by simp [Instr.WellFormed, Instr.wellFormed] at h; omega)

end Sys2Proof.Laws.OpcodeByte
end

