-- ==== Sys2Proof/Tests/Slice0.lean ====
section
/-! SUPPORT. Tests. Expected values come from the spec: 95_test_vectors.md by section, the examples
of the rules, and words written out from R48 and R49. The theorems at the end show that the
hypotheses of each statement can be met. -/

open Sys2Proof Sys2Proof.Machine

namespace Sys2Proof.Tests

/-! Small states. -/

/-- The state after reset with a live parameter set in its registers. -/
def withSet (ctrl poly init xorout : Word) : State :=
  { State.reset with ctrl := ctrl, poly := poly, init := init, xorout := xorout }

/-- CRC-32 (K1 of 93_implementation_defined.md). -/
def crc32 : State := withSet 0x320 0x04C11DB7 0xFFFFFFFF 0xFFFFFFFF
/-- CRC-8. -/
def crc8 : State := withSet 0x8 0x07 0 0
/-- CRC-16/XMODEM. -/
def xmodem : State := withSet 0x10 0x1021 0 0
/-- CRC-5/USB. -/
def usb5 : State := withSet 0x305 0x05 0x1F 0x1F
/-- W5N of section 2, a sub-byte width without reflection. -/
def w5n : State := withSet 0x5 0x05 0 0
/-- W3R of section 2, a sub-byte width with REFIN ≠ REFOUT. -/
def w3r : State := withSet 0x103 0x3 0 0
/-- CRC-12/UMTS. -/
def umts12 : State := withSet 0x20C 0x80F 0 0

/-- A state's live set built into its table. -/
def built (s : State) : State := s.setTable (buildTable s.cfg)

/-- A field of the state an outcome answers. -/
def after {α : Type} (f : State → α) : Host.Outcome State Fault Refusal → Option α
  | .next t => some (f t)
  | .fault _ => none
  | .refused _ => none

/-- The state reached by one step that performs a. -/
def stepOn (s : State) (a : Access) : Host.Outcome State Fault Refusal := step (s.setPending [a])

/-! Well-formedness: each check refuses an ill-formed term. -/

theorem test_feed_wide_data_refused : (Instr.feed 256).wellFormed = false := by decide
theorem test_tfeed_wide_data_refused : (Instr.tfeed 256).wellFormed = false := by decide
theorem test_feedbits_wide_data_refused : (Instr.feedbits 256 3).wellFormed = false := by decide
theorem test_feedbits_eight_bits_refused : (Instr.feedbits 0 8).wellFormed = false := by decide
theorem test_tfeedbits_wide_data_refused : (Instr.tfeedbits 256 0).wellFormed = false := by decide
theorem test_tfeedbits_eight_bits_refused : (Instr.tfeedbits 255 8).wellFormed = false := by decide
theorem test_refl_wide_n_refused : (Instr.refl 128).wellFormed = false := by decide
theorem test_assembler_emits_nothing : assembleInstr (.feedbits 0 8) = none := by decide

/-! Decoding: one word of every command, bit by bit from R48 (v[63:23], N[6:3] or zeros, NB or
N[2:0], DATA, OP) and R49. -/

/-- The word of R48's columns. -/
def word (top : BitVec 41) (mid : BitVec 4) (low : BitVec 3) (data op : BitVec 8) : Word :=
  top ++ mid ++ low ++ data ++ op

theorem test_decode_nop : decode (word 0 0 0 0 0b00000000) = .ok .nop := by decide
theorem test_decode_seed : decode (word 0 0 0 0 0b00000001) = .ok .seed := by decide
theorem test_decode_resume : decode (word 0 0 0 0 0b00000010) = .ok .resume := by decide
theorem test_decode_feed : decode (word 0 0 0 0b00110001 0b00000011) = .ok (.feed 0x31) := by decide
theorem test_decode_feedbits :
    decode (word 0 0 0b011 0b00000111 0b00000100) = .ok (.feedbits 0x07 3) := by decide
theorem test_decode_fin : decode (word 0 0 0 0 0b00000101) = .ok .fin := by decide
theorem test_decode_unfin : decode (word 0 0 0 0 0b00000110) = .ok .unfin := by decide
theorem test_decode_finx : decode (word 0 0 0 0 0b00000111) = .ok .finx := by decide
theorem test_decode_build : decode (word 0 0 0 0 0b00001000) = .ok .build := by decide
theorem test_decode_tseed : decode (word 0 0 0 0 0b00010001) = .ok .tseed := by decide
theorem test_decode_tresume : decode (word 0 0 0 0 0b00010010) = .ok .tresume := by decide
theorem test_decode_tfeed :
    decode (word 0 0 0 0b11111111 0b00010011) = .ok (.tfeed 0xFF) := by decide
theorem test_decode_tfeedbits :
    decode (word 0 0 0b111 0b10000001 0b00010100) = .ok (.tfeedbits 0x81 7) := by decide
theorem test_decode_tfin : decode (word 0 0 0 0 0b00010101) = .ok .tfin := by decide
theorem test_decode_tunfin : decode (word 0 0 0 0 0b00010110) = .ok .tunfin := by decide
theorem test_decode_tfinx : decode (word 0 0 0 0 0b00010111) = .ok .tfinx := by decide
theorem test_decode_refl : decode (word 0 0b0100 0b001 0 0b00100000) = .ok (.refl 33) := by decide
theorem test_decode_clrerr : decode (word 0 0 0 0 0b00111111) = .ok .clrerr := by decide

/-- Section 2.7: 0x99 and 0x100099 are ILLOP; the others have a reserved bit set. -/
theorem test_decode_rejects :
    decode 0x99 = .error .illop ∧ decode 0x100099 = .error .illop ∧ decode 0x18 = .error .illop ∧
      decode 0x10003 = .error .rsvd ∧ decode 0x100 = .error .rsvd ∧
      decode 0x800020 = .error .rsvd ∧ decode 0xFF20 = .error .rsvd ∧
      decode 0x80004 = .error .rsvd := by decide

/-- R53's examples. -/
theorem test_encode_examples :
    encode (.feed 0x31) = 0x3103 ∧ encode (.feedbits 0x07 3) = 0x30704 ∧
      encode (.refl 32) = 0x200020 := by decide

theorem test_table_word : decodeTableWord 24 0x30704 = some (.feedbits 7 3) := by decide

/-! The text of a line (R53's examples). -/

theorem test_parse_feedbits :
    parseLine "  Cmd FEEDBITS 0x07, 3   ; trailing bits".toList =
      some [.cmd (.feedbits 7 3)] := by decide
theorem test_parse_tcalcprior :
    parseLine "tcalcprior 0x31, 50, 0x5349".toList =
      some [.wr .arg 0x5349, .cmd .tresume, .cmd (.tfeed 0x31), .cmd (.tfeed 0x32),
        .cmd .tfin] := by decide
theorem test_parse_calcbits_list :
    parseLine "calcbits 0x31, 8".toList = some [.cmd .seed, .cmd (.feed 0x31), .cmd .fin] := by
  decide
theorem test_parse_tcalcbits_list_prior :
    parseLine "tcalcbits 0x31, 0x07, 11, 9".toList =
      some [.wr .arg 9, .cmd .tresume, .cmd (.tfeed 0x31), .cmd (.tfeedbits 0x07 3),
        .cmd .tfin] := by decide
theorem test_parse_wr : parseLine "wr CTRL, 0x320".toList = some [.wr .ctrl 0x320] := by decide

/-! Commands. -/

/-- R85: no register changes. -/
theorem test_nop :
    after (fun t => (t.ctrl, t.r, statusWord t)) (exec .nop (crc32.setR 5)) = some (0x320, 5, 0) := by
  decide

/-- R86's example: STATUS = 0x0132, CLRERR gives 0. -/
theorem test_clrerr :
    statusWord (crc8.setError true 3 1) = 0x132 ∧
      after statusWord (exec .clrerr (crc8.setError true 3 1)) = some 0 := by decide

/-- Section 2.1: ARG = 0x12345678, n = 8. -/
theorem test_refl :
    after State.result (exec (.refl 8) { crc8 with arg := 0x12345678 }) = some 0x1E := by
  decide
/-- Section 2.7: REFL 65 gives STATUS 0x2052; section 2.1: REFL 33 is refused with WMAX = 32. -/
theorem test_refl_range :
    after statusWord (stepOn crc8 (cmdAccess 0x410020)) = some 0x2052 ∧
      after statusWord (stepOn { crc8 with wmax := 32 } (cmdAccess 0x210020)) = some 0x2052 := by
  decide

/-- Section 2.6: INIT = 0x12345 with W = 16 gives 0x2345. -/
theorem test_seed : after State.r (exec .seed (withSet 0x10 0 0x12345 0)) = some 0x2345 := by
  decide
/-- Section 2.7: CTRL.WIDTH = 65, SEED gives STATUS 0x0132; RSVD outranks WIDTH, 0x0122. -/
theorem test_seed_width :
    after statusWord (stepOn (withSet 65 0 0 0) (cmdAccess 0x01)) = some 0x132 ∧
      after statusWord (stepOn (withSet 65 0 0 0) (cmdAccess 0x10001)) = some 0x122 := by
  decide

/-- R80's example: TINIT, not INIT. -/
theorem test_tseed :
    after State.r (exec .tseed { built (withSet 0x10 0x1021 0xFFFF 0) with init := 0 }) =
      some 0xFFFF := by decide
/-- Section 2.7: TSEED without a table gives 0x1142; RSVD outranks NOTABLE, 0x1122. -/
theorem test_tseed_notable :
    after statusWord (stepOn crc8 (cmdAccess 0x11)) = some 0x1142 ∧
      after statusWord (stepOn crc8 (cmdAccess 0x10011)) = some 0x1122 := by decide

/-- Section 2.6: UMTS12, ARG = 0xDAF. -/
theorem test_resume :
    after State.r (exec .resume { umts12 with arg := 0xDAF }) = some 0xF5B := by decide
/-- Section 2.6: CRC-32, ARG = 0x9BE3E0A3. -/
theorem test_tresume :
    after State.r (exec .tresume { built crc32 with arg := 0x9BE3E0A3, xorout := 0 }) =
      some 0x641C1F5C := by decide

/-- Section 2.2: CRC-32, R = 0xFFFFFFFF, 0x31. -/
theorem test_feed_reflected :
    after State.r (exec (.feed 0x31) (crc32.setR 0xFFFFFFFF)) = some 0x7C231048 := by
  decide
/-- Section 2.2: W5N, R = 0x09, 0xA5. -/
theorem test_feed_subbyte : after State.r (exec (.feed 0xA5) (w5n.setR 9)) = some 4 := by
  decide

/-- Section 2.3: CRC-16/XMODEM, 0xBF, 3 bits. -/
theorem test_feedbits_msb : after State.r (exec (.feedbits 0xBF 3) xmodem) = some 0x50A5 := by
  decide
/-- Section 1.2: CRC-5/USB, R = 0x08, 0x07, 3 bits. -/
theorem test_feedbits_lsb : after State.r (exec (.feedbits 7 3) (usb5.setR 8)) = some 0x1A := by
  decide
/-- Section 2.3: CRC-8, R = 0x5A, 0x80, 1 bit. -/
theorem test_tfeedbits :
    after State.r (exec (.tfeedbits 0x80 1) ((built crc8).setR 0x5A)) = some 0xB3 := by
  decide

/-- Section 2.4: CRC-32's TABLE[0x31] through TDATA, and W5N's TABLE[0xFF]. -/
theorem test_build :
    after (fun t => portRead 0x70 { t with tidx := 0x31 }) (exec .build crc32) = some 0x51DE003A ∧
      after (fun t => portRead 0x70 { t with tidx := 0xFF }) (exec .build w5n) = some 0xA0 := by
  decide

/-- Section 2.4: CRC-32, R = 0xFFFFFFFF, TFEED 0x31. -/
theorem test_tfeed_reflected :
    after State.r (exec (.tfeed 0x31) ((built crc32).setR 0xFFFFFFFF)) = some 0x7C231048 := by
  decide
/-- Section 2.2's W5N row through the table. -/
theorem test_tfeed_subbyte :
    after State.r (exec (.tfeed 0xA5) ((built w5n).setR 9)) = some 4 := by decide

/-- Section 2.5: CRC-32, R = 0x340BC6D9. -/
theorem test_fin : after State.result (exec .fin (crc32.setR 0x340BC6D9)) = some 0xCBF43926 := by
  decide
/-- Section 2.5: UMTS12, ARG = 0xDAF. -/
theorem test_unfin :
    after State.result (exec .unfin { umts12 with arg := 0xDAF }) = some 0xF5B := by decide
/-- Section 2.5: W3R, ARG = 0x6. -/
theorem test_finx : after State.result (exec .finx { w3r with arg := 6 }) = some 3 := by
  decide
/-- Section 1.2: CRC-5/USB, R = 0x1A. -/
theorem test_tfin : after State.result (exec .tfin ((built usb5).setR 0x1A)) = some 5 := by
  decide
/-- R77's example: CRC-5/USB, ARG = 0x05. -/
theorem test_tunfin :
    after State.result (exec .tunfin { built usb5 with arg := 5 }) = some 0x1A := by decide
/-- R78's example: W3R, ARG = 0x6. -/
theorem test_tfinx :
    after State.result (exec .tfinx { built w3r with arg := 6 }) = some 3 := by decide

/-! Port accesses (section 2.8). -/

theorem test_write_ctrl_masks :
    after State.ctrl (stepOn State.reset (.write 0x00 0xFFFFFFFFFFFFFFFF)) = some 0x37F := by
  decide
theorem test_write_tidx_masks :
    after State.tidx (stepOn State.reset (.write 0x68 0x1FF)) = some 0xFF := by decide
theorem test_misaligned_and_past_the_map_read_zero :
    after State.reads (stepOn crc32 (.read 0x04)) = some [0] ∧
      after State.reads (stepOn crc32 (.read 0x80)) = some [0] := by decide
theorem test_read_caps :
    after State.reads (stepOn crc32 (.read 0x78)) = some [0x40] ∧
      after State.reads (stepOn { crc32 with wmax := 32 } (.read 0x78)) = some [0x20] := by
  decide
theorem test_write_rem_ignored :
    after State.r (stepOn State.reset (.write 0x38 5)) = some 0 := by decide
/-- R109: the reset input clears R, ARG and TVALID of a used engine. -/
theorem test_reset_input :
    after (fun t => (t.r, t.arg, t.tvalid)) (stepOn { (built crc32).setR 5 with arg := 7 } .reset) =
      some (0, 0, false) := by decide

/-! Witnesses: the hypotheses of each statement met together, at boundary values where a clause has
a range. -/

/-- The widest live set: CTRL.WIDTH = WMAX = 64. -/
def crc64 : State := withSet 0x40 0x42F0E1EBA9EA3693 0 0
/-- CTRL.WIDTH one past WMAX. -/
def tooWide : State := withSet 65 0 0 0

theorem witness_well_formed :
    (Instr.feed 255).WellFormed ∧ (Instr.tfeed 0).WellFormed ∧ (Instr.feedbits 255 7).WellFormed ∧
      (Instr.tfeedbits 0 0).WellFormed ∧ (Instr.refl 127).WellFormed ∧ Instr.nop.WellFormed := by
  decide
theorem witness_decodes : decode 0x7FF04 = .ok (.feedbits 255 7) ∧ decode 0x7F0020 = .ok (.refl 127) := by
  decide
theorem witness_pseudo_operands :
    (127 < 2 ^ 7 ∧ 2 ^ 64 - 1 < 2 ^ 64 ∧ 1 < 2) ∧ (2 ^ 64 - 1 < 2 ^ 64 ∧ 127 ≤ 127) ∧
      (∀ d ∈ [0, 255], d ≤ 255) ∧ (255 ≤ 255 ∧ 1 ≤ 7 ∧ 7 ≤ 7) := by decide
theorem witness_step_runs :
    (crc32.setPending [.write 0x28 0x30704]).pending = .write 0x28 0x30704 :: [] ∧
      decode 0x30704 = .ok (.feedbits 7 3) ∧ decodeTableWord 24 0x30704 = some (.feedbits 7 3) := by
  decide
theorem witness_step_refuses :
    (crc32.setPending [.write 0x28 0x99]).pending = .write 0x28 0x99 :: [] ∧
      decode 0x99 = .error .illop ∧
      (crc32.setPending [.write 0x28 0x10003]).pending = .write 0x28 0x10003 :: [] ∧
      decode 0x10003 = .error .rsvd := by decide
theorem witness_error_record :
    crc32.err = false ∧ (crc32.setError true 3 1).err = true := by decide
/-- One word and state for each branch of Execute. -/
theorem witness_execute_branches :
    illegalOp (opField 0x40).toNat = true ∧
      (illegalOp (opField 0x10011).toNat = false ∧ matchingRows 0x10011 = []) ∧
      (matchingRows 0x17 ≠ [] ∧ (opField 0x17).toNat = 0x17 ∧ crc32.tvalid = false) ∧
      (matchingRows 0x08 ≠ [] ∧ (opField 0x08).toNat = 0x08 ∧ tooWide.wmax < tooWide.cfg.width) ∧
      (matchingRows 0x410020 ≠ [] ∧ crc32.wmax < (0x410020#64).toNat / 2 ^ 16 % 2 ^ 7) ∧
      (matchingRows 0x400020 ≠ [] ∧ ¬ crc32.wmax < (0x400020#64).toNat / 2 ^ 16 % 2 ^ 7) := by
  decide
theorem witness_idle : State.reset.pending = [] := by decide
theorem witness_step_answers :
    (after State.pending (stepOn crc32 (.read 0x78)) = some [] ∧
      after State.pending (stepOn crc32 (.write 0x28 1)) = some []) := by decide
theorem witness_pending_access (a : Access) : (crc32.setPending [a]).pending = a :: [] := rfl
theorem witness_unmapped :
    unmapped 0x04 = true ∧ unmapped 0x79 = true ∧ unmapped 0x80 = true ∧
      0x30 ∈ readOnlyOffsets ∧ 0x78 ∈ readOnlyOffsets ∧ unmapped 0x78 = false := by decide
theorem witness_live_set_accepted : crc64.cfg.width = 64 ∧ crc64.cfg.width ≤ crc64.wmax ∧
    crc64.wmax ≤ 64 := by decide
theorem witness_live_set_refused : tooWide.wmax < tooWide.cfg.width := by decide
theorem witness_table_present : (built crc32).tvalid = true ∧ crc32.tvalid = false := by
  decide
theorem witness_refl_ranges : 64 ≤ crc32.wmax ∧ crc32.wmax < 65 := by decide
/-- For every opcode a word with that OP; and words of OP 0x03 and 0x20 on both sides of the mask. -/
theorem witness_words_of :
    (∀ op : BitVec 8, opField (op.zeroExtend 64) = op) ∧
      (opField 0xFF03 = 0x03 ∧ 0xFF03 &&& Format.b.mask = 0x03) ∧
      (opField 0x10003 = 0x03 ∧ 0x10003 &&& Format.b.mask ≠ 0x03) ∧
      (opField 0x7F0020 = 0x20 ∧ 0x7F0020 &&& Format.n.mask = 0x20) ∧
      (opField 0x800020 = 0x20 ∧ 0x800020 &&& Format.n.mask ≠ 0x20) :=
  ⟨fun op => BitVec.eq_of_toNat_eq (by simp [opField, op.isLt]), by decide⟩
theorem witness_n_bit_value : 31 < 2 ^ 5 := by decide
/-- Bytes and counts at the ends of their ranges, with W = 0, 1, 7, 8 and 64. -/
theorem witness_fold_operands :
    255 < 256 ∧ 8 ≤ 8 ∧ 0 ≤ 8 ∧ 7 ≤ 7 ∧ State.reset.cfg.width = 0 ∧
      1 ≤ (withSet 0x101 1 0 0).cfg.width ∧ (withSet 0x101 1 0 0).cfg.refin = true ∧
      (withSet 0x7 1 0 0).cfg.width = 7 ∧ crc8.cfg.width = 8 ∧ crc64.cfg.width = 64 ∧
      0xFFFFFFFFFFFFFFFF < 2 ^ crc64.cfg.width := by decide
/-- R's bits above W do not matter (section 2.2: 0xABCD1234 under a 16-bit set). -/
theorem witness_low_bits_agree :
    xmodem.cfg.refin = false ∧ 0xABCD1234 % 2 ^ xmodem.cfg.width = 0x1234 % 2 ^ xmodem.cfg.width ∧
      crc32.cfg.refin = true ∧ 0xFFFFFFFF < 2 ^ crc32.cfg.width := by decide
/-- The padding pairs of section 2.3. -/
theorem witness_padding :
    (crc32.cfg.refin = true ∧ 0x05 % 2 ^ 3 = 0xFD % 2 ^ 3) ∧
      (xmodem.cfg.refin = false ∧ 0xA0 / 2 ^ (8 - 3) = 0xBF / 2 ^ (8 - 3)) := by decide
/-- Two sets that differ only above W (section 2.2: POLY = 0xFFFF1021 under W = 16). -/
theorem witness_upper_parameter_bits :
    let P := xmodem.cfg
    let Q := (withSet 0x10 0xFFFF1021 0x10000 0xFFFF0000).cfg
    P.width = Q.width ∧ P.refin = Q.refin ∧ P.refout = Q.refout ∧
      P.poly % 2 ^ P.width = Q.poly % 2 ^ P.width ∧ P.init % 2 ^ P.width = Q.init % 2 ^ P.width ∧
      P.xorout % 2 ^ P.width = Q.xorout % 2 ^ P.width ∧
      0xABCD1234 % 2 ^ P.width = 0x1234 % 2 ^ P.width := by decide
theorem witness_parity_set :
    (withSet 0x1 1 0 0).cfg.width = 1 ∧ (withSet 0x1 1 0 0).cfg.poly % 2 = 1 := by decide
theorem witness_table_entry_cases :
    (w5n.cfg.refin = false ∧ w5n.cfg.width < 8) ∧ (usb5.cfg.refin = true) ∧ 8 ≤ crc8.cfg.width := by
  decide
/-- A BUILD that is performed. -/
theorem witness_build_answers : exec .build crc32 = .next (built crc32) := rfl

/-- A state a run reaches meets the invariant: CRC-32 configured and built. -/
theorem witness_invariant : (built crc32).Inv where
  wmax_pos := by decide
  wmax_le := by decide
  ctrl_reserved := by decide
  tctrl_reserved := by decide
  tctrl_width := by decide
  r_bound := by decide
  result_bound := by decide
  table_built := fun _ => rfl
  no_table := fun h => nomatch h
  no_error := fun _ => by decide
  error_code := fun h => nomatch h

/-- The premises of the call statements: the invariant, an accepted width, a table, bytes. -/
theorem witness_call :
    (built crc32).Inv ∧ (built crc32).cfg.width ≤ (built crc32).wmax ∧ (built crc32).tvalid = true ∧
      (∀ d ∈ [0x31, 0xFF], d ≤ 255) :=
  ⟨witness_invariant, by decide, rfl, by decide⟩

theorem witness_command_classes :
    Instr.fin.writesR = false ∧ Instr.seed.writesResult = false ∧ Instr.seed ≠ .build ∧
      Instr.seed ≠ .clrerr ∧ Instr.tfinx.readsTcfg = true := by decide
/-- A step that sets TVALID and one that clears it. -/
theorem witness_tvalid_changes :
    (crc32.tvalid = false ∧ after State.tvalid (stepOn crc32 (.write 0x28 0x08)) = some true) ∧
      after State.tvalid (stepOn (built crc32) .reset) = some false := by decide
/-- A step with an error recorded that performs neither CLRERR nor reset. -/
theorem witness_sticky :
    after statusWord (stepOn (tooWide.setError true 3 1) (.write 0x28 0x3113)) = some 0x132 := by
  decide
/-- Two states that differ only in TABLE, with TVALID = 0. -/
theorem witness_hidden_table :
    crc32.tvalid = false ∧ SameButTable crc32 { crc32 with table := buildTable crc32.cfg } :=
  ⟨rfl, rfl⟩
/-- A table command that answers a next state. -/
theorem witness_table_command_answers :
    Instr.tseed.readsTcfg = true ∧
      exec .tseed (built crc32) = .next (writeR (built crc32).tcfg.initE (built crc32)) := ⟨rfl, rfl⟩

end Sys2Proof.Tests
end

section
/-! The scope statements (00_scope.md): every W-bit result of a CRC of width 0 is 0, because it is
below 2^0. -/

namespace Sys2Proof.Proofs

open Sys2Proof.Machine

/-- A table entry is the byte fold from 0, left-aligned in 8 bits when REFIN = 0 and W < 8: the
mask of R64 drops nothing, since BitFold is already W bits wide. -/
theorem tableEntry_eq_bitFold_mul (P : ParamSet) (b : Nat) :
    tableEntry P b =
      bitFold P 0 b 8 * (if P.refin = false ∧ P.width < 8 then 2 ^ (8 - P.width) else 1) := by
  have masked : bitFold P 0 b 8 &&& mask P.width = bitFold P 0 b 8 := by
    rw [and_mask, Nat.mod_eq_of_lt (bitFold_lt P 0 b 8)]
  unfold tableEntry
  rw [masked]
  split
  · exact Nat.shiftLeft_eq _ _
  · exact (Nat.mul_one _).symm

/-- The only value of W bits with W = 0 is 0 (R6). -/
theorem eq_zero_of_lt_of_width_zero {P : ParamSet} {v : Nat} (hv : v < 2 ^ P.width)
    (hw : P.width = 0) : v = 0 := by
  rw [hw] at hv
  exact Nat.lt_one_iff.mp hv

/-- A fold by bits at width 0 gives 0, whatever its operands (R6). -/
theorem bitFold_of_width_zero {P : ParamSet} (hw : P.width = 0) (r b n : Nat) :
    bitFold P r b n = 0 :=
  eq_zero_of_lt_of_width_zero (bitFold_lt P r b n) hw

/-- A table entry at width 0 is 0: the shift by 8 - W moves a fold that is 0 (R64). -/
theorem tableEntry_of_width_zero {P : ParamSet} (hw : P.width = 0) (b : Nat) :
    tableEntry P b = 0 := by
  rw [tableEntry_eq_bitFold_mul, bitFold_of_width_zero hw, Nat.zero_mul]

/-- Settles O45: each result is below 2^W, and a table entry is a multiple of such a result. -/
theorem zeroWidthGivesZero : Obligations.ZeroWidthGivesZero := by
  intro P T x b n hw _ _
  have zero {v : Nat} (hv : v < 2 ^ P.width) : v = 0 := eq_zero_of_lt_of_width_zero hv hw
  exact ⟨zero (initE_lt P), bitFold_of_width_zero hw x b n, zero (tableFold_lt P T x b),
    tableEntry_of_width_zero hw b, zero (finalize_lt P x), zero (undoFinalize_lt P x)⟩

end Sys2Proof.Proofs
end

section
/-! What one command and one access leave unchanged (R21, R24 to R31 of 10_state.md): each lemma
takes a function of the state and asks of it only what the command can write. -/

namespace Sys2Proof.Proofs

open Sys2Proof.Machine

variable {i : Instr} {a : Access} {s t : State}

/-- A function of the state is unchanged by a command when it is unchanged by a refusal, by the
clearing of the record if the command is CLRERR, by a write of R or RESULT if the command is one of
R24 or R25, and by a new table if the command is BUILD. -/
theorem exec_unchanged {α : Type} (f : State → α) (h : exec i s = .next t)
    (onRefusal : ∀ e op, f (cmdError e op s) = f s)
    (onClrerr : i = .clrerr → f (s.setError false 0 0) = f s)
    (onR : i.writesR = true → ∀ v, f (s.setR v) = f s)
    (onResult : i.writesResult = true → ∀ v, f (s.setResult v) = f s)
    (onBuild : i = .build → ∀ T, f (s.setTable T) = f s) : f t = f s := by
  obtain ⟨-, rfl⟩ | ⟨e, rfl⟩ | ⟨hi, rfl⟩ | ⟨hi, -, v, -, -, rfl⟩ | ⟨hi, -, v, -, -, rfl⟩ |
    ⟨n, rfl, -, rfl⟩ | ⟨hi, -, rfl⟩ := exec_cases h
  · rfl
  · exact onRefusal e _
  · exact onClrerr hi
  · exact onR hi _
  · exact onResult hi _
  · exact onResult rfl _
  · exact onBuild hi _

/-- Only the commands of R24 change R. -/
theorem exec_r (h : exec i s = .next t) (hi : i.writesR = false) : t.r = s.r :=
  exec_unchanged State.r h (fun _ _ => cmdError_r ..) (fun _ => rfl) (by simp [hi])
    (fun _ _ => rfl) (fun _ _ => rfl)

/-- Only the commands of R25 change RESULT. -/
theorem exec_result (h : exec i s = .next t) (hi : i.writesResult = false) :
    t.result = s.result :=
  exec_unchanged State.result h (fun _ _ => cmdError_result ..) (fun _ => rfl) (fun _ _ => rfl)
    (by simp [hi]) (fun _ _ => rfl)

/-- Only BUILD changes TABLE, TCFG and TVALID (R26, R27, R28). -/
theorem exec_table (h : exec i s = .next t) (hi : i ≠ .build) :
    t.table = s.table ∧ t.tctrl = s.tctrl ∧ t.tpoly = s.tpoly ∧ t.tinit = s.tinit ∧
      t.txorout = s.txorout ∧ t.tvalid = s.tvalid := by
  simpa using exec_unchanged
    (fun u => (u.table, u.tctrl, u.tpoly, u.tinit, u.txorout, u.tvalid)) h
    (fun _ _ => by simp) (fun _ => rfl) (fun _ _ => rfl) (fun _ _ => rfl) (fun hb => absurd hb hi)

/-- Only CLRERR changes a recorded error: a later refusal keeps the first (R97). -/
theorem exec_error (h : exec i s = .next t) (hi : i ≠ .clrerr) (herr : s.err = true) :
    t.err = true ∧ t.errcode = s.errcode ∧ t.errop = s.errop := by
  simpa [herr] using exec_unchanged (fun u => (u.err, u.errcode, u.errop)) h
    (fun e op => by rw [cmdError_of_err e op herr]) (fun hc => absurd hc hi) (fun _ _ => rfl)
    (fun _ _ => rfl) (fun _ _ => rfl)

/-- No command writes the live set, ARG, TIDX, WMAX or the host's lists. -/
theorem exec_frame (h : exec i s = .next t) :
    t.ctrl = s.ctrl ∧ t.poly = s.poly ∧ t.init = s.init ∧ t.xorout = s.xorout ∧ t.arg = s.arg ∧
      t.tidx = s.tidx ∧ t.wmax = s.wmax ∧ t.pending = s.pending ∧ t.reads = s.reads := by
  simpa using exec_unchanged
    (fun u => (u.ctrl, u.poly, u.init, u.xorout, u.arg, u.tidx, u.wmax, u.pending, u.reads)) h
    (fun _ _ => by simp) (fun _ => rfl) (fun _ _ => rfl) (fun _ _ => rfl) (fun _ _ => rfl)

/-- Settles O53: one frame lemma for each group of elements. -/
theorem onlyNamedCommandsWrite : Obligations.OnlyNamedCommandsWrite := fun _ _ _ h =>
  ⟨exec_r h, exec_result h, exec_table h, exec_error h, exec_frame h⟩

/-- A write of a port register leaves TVALID, the parameter WMAX and the host's lists (R35, R36). -/
theorem writeReg_frame (reg : PortReg) (v : Word) (s : State) :
    (writeReg reg v s).tvalid = s.tvalid ∧ (writeReg reg v s).wmax = s.wmax ∧
      (writeReg reg v s).pending = s.pending ∧ (writeReg reg v s).reads = s.reads := by
  cases reg <;> exact ⟨rfl, rfl, rfl, rfl⟩

/-- No access changes the parameter WMAX or the accesses still to come (R5, R14). -/
theorem perform_wmax_pending (h : perform a s = .next t) :
    t.wmax = s.wmax ∧ t.pending = s.pending := by
  obtain ⟨off, -, rfl⟩ | ⟨-, rfl⟩ | ⟨off, v, -, -, rfl | ⟨reg, -, -, rfl⟩⟩ | ⟨v, e, -, -, rfl⟩ |
    ⟨v, i, -, -, hx⟩ := perform_cases h
  · exact ⟨rfl, rfl⟩
  · exact ⟨rfl, rfl⟩
  · exact ⟨rfl, rfl⟩
  · obtain ⟨-, hwmax, hpending, -⟩ := writeReg_frame reg v s
    exact ⟨hwmax, hpending⟩
  · exact ⟨cmdError_wmax .., cmdError_pending ..⟩
  · obtain ⟨-, -, -, -, -, -, hwmax, hpending, -⟩ := exec_frame hx
    exact ⟨hwmax, hpending⟩

/-- Only a PortRead hands the host a value (R34). -/
theorem perform_reads (h : perform a s = .next t) :
    (∃ off, a = .read off ∧ t.reads = portRead off s :: s.reads) ∨
      ((∀ off, a ≠ .read off) ∧ t.reads = s.reads) := by
  obtain ⟨off, ha, rfl⟩ | ⟨rfl, rfl⟩ | ⟨off, v, rfl, -, rfl | ⟨reg, -, -, rfl⟩⟩ |
    ⟨v, e, rfl, -, rfl⟩ | ⟨v, i, rfl, -, hx⟩ := perform_cases h
  · exact .inl ⟨off, ha, rfl⟩
  · exact .inr ⟨nofun, rfl⟩
  · exact .inr ⟨nofun, rfl⟩
  · obtain ⟨-, -, -, hreads⟩ := writeReg_frame reg v s
    exact .inr ⟨nofun, hreads⟩
  · exact .inr ⟨nofun, cmdError_reads ..⟩
  · obtain ⟨-, -, -, -, -, -, -, -, hreads⟩ := exec_frame hx
    exact .inr ⟨nofun, hreads⟩

/-- What a read returns does not depend on the accesses that follow it. -/
theorem portRead_setPending (off : Nat) (as : List Access) (s : State) :
    portRead off (s.setPending as) = portRead off s := rfl

/-- Settles O12: the step takes the head off the list, and the access it performs leaves the rest. -/
theorem eachStepConsumesOneAccess : Obligations.EachStepConsumesOneAccess := by
  intro s t h
  obtain ⟨hp, rfl⟩ | ⟨a, as, hp, ha⟩ := step_cases h
  · simp [hp]
  · obtain ⟨-, hpending⟩ := perform_wmax_pending ha
    refine ⟨by simpa [hp] using hpending, ?_⟩
    obtain ⟨off, rfl, hreads⟩ | ⟨hne, hreads⟩ := perform_reads ha
    · exact .inl ⟨off, as, hp, hreads⟩
    · refine .inr ⟨fun off rest hr => hne off ?_, hreads⟩
      exact (List.cons.inj (hp.symm.trans hr)).1

/-- No step changes the parameter WMAX (R5). -/
theorem step_wmax (h : step s = .next t) : t.wmax = s.wmax := by
  obtain ⟨-, rfl⟩ | ⟨a, as, -, ha⟩ := step_cases h
  · rfl
  · exact (perform_wmax_pending ha).1

/-- CAPS reads the parameter WMAX (R31). -/
theorem portRead_caps (s : State) : portRead 0x78 s = BitVec.ofNat 64 s.wmax := rfl

/-- Settles O56: CAPS is a function of WMAX, which every step keeps. -/
theorem capsIsHardwired : Obligations.CapsIsHardwired := by
  intro s t h
  have hw : t.wmax = s.wmax := step_wmax h
  refine ⟨hw, by rw [portRead_caps, portRead_caps, hw], fun hle => ?_⟩
  rw [portRead_caps, hw, BitVec.toNat_ofNat]
  omega

end Sys2Proof.Proofs
end

section
/-! TVALID (R27): the one command word that sets it and the one access that clears it. -/

namespace Sys2Proof.Proofs

open Sys2Proof.Machine

variable {s t : State}

/-- A word that decodes to a command agrees with its opcode under its format's mask (R48). -/
theorem and_mask_of_decode {v : Word} {i : Instr} (h : decode v = .ok i) :
    v &&& i.format.mask = i.opcode.zeroExtend 64 := by
  unfold decode at h
  split at h
  · cases h
  · split at h
    · cases h
      exact of_decide_eq_true ‹rowMatches v i = true›
    · cases h

/-- Format Z masks no bit, so BUILD has the one word 0x08 (R49). -/
theorem eq_of_decode_build {v : Word} (h : decode v = .ok .build) : v = 0x08 := by
  have masked : v &&& BitVec.allOnes 64 = 0x08 := and_mask_of_decode h
  rwa [BitVec.and_allOnes] at masked

/-- A command leaves TVALID or is a BUILD that is performed, which sets it (R27, R65). -/
theorem exec_tvalid {i : Instr} (h : exec i s = .next t) :
    t.tvalid = s.tvalid ∨ (i = .build ∧ s.cfg.width ≤ s.wmax ∧ t.tvalid = true) := by
  by_cases hi : i = .build
  · subst hi
    rw [exec_build] at h
    obtain ⟨hw, rfl⟩ | ⟨-, rfl⟩ := onCfg_cases h
    · exact .inr ⟨rfl, hw, rfl⟩
    · exact .inl (cmdError_tvalid ..)
  · obtain ⟨-, -, -, -, -, htvalid⟩ := exec_table h hi
    exact .inl htvalid

/-- An access leaves TVALID, sets it as BUILD's word with an accepted width, or clears it as the
reset input (R27). -/
theorem perform_tvalid {a : Access} (h : perform a s = .next t) :
    t.tvalid = s.tvalid ∨ (a = .write 0x28 0x08 ∧ s.cfg.width ≤ s.wmax ∧ t.tvalid = true) ∨
      (a = .reset ∧ t.tvalid = false) := by
  obtain ⟨off, -, rfl⟩ | ⟨ha, rfl⟩ | ⟨off, v, -, -, rfl | ⟨reg, -, -, rfl⟩⟩ | ⟨v, e, -, -, rfl⟩ |
    ⟨v, i, rfl, hd, hx⟩ := perform_cases h
  · exact .inl rfl
  · exact .inr (.inr ⟨ha, rfl⟩)
  · exact .inl rfl
  · exact .inl (writeReg_frame reg v s).1
  · exact .inl (cmdError_tvalid ..)
  · obtain heq | ⟨rfl, hw, htvalid⟩ := exec_tvalid hx
    · exact .inl heq
    · rw [eq_of_decode_build hd]
      exact .inr (.inl ⟨rfl, hw, htvalid⟩)

/-- Settles O54: of the three things an access can do to TVALID, one sets it and one clears it. -/
theorem tableValidOnlyByBuild : Obligations.TableValidOnlyByBuild := by
  intro s t h
  obtain ⟨-, rfl⟩ | ⟨a, as, hp, ha⟩ := step_cases h
  · exact ⟨fun h0 h1 => by simp [h0] at h1, fun h1 h0 => by simp [h0] at h1⟩
  · rw [hp, List.head?_cons]
    obtain heq | ⟨rfl, hw, hset⟩ | ⟨rfl, hclear⟩ := perform_tvalid ha
    · have hst : t.tvalid = s.tvalid := heq
      exact ⟨fun h0 h1 => by simp [hst, h0] at h1, fun h1 h0 => by simp [hst, h1] at h0⟩
    · exact ⟨fun _ _ => ⟨rfl, hw⟩, fun _ h0 => by simp [hset] at h0⟩
    · exact ⟨fun _ h1 => by simp [hclear] at h1, fun _ _ => rfl⟩

end Sys2Proof.Proofs
end

section
/-! The invariant State.Inv: one lemma for each operation that writes the state, then commands,
accesses and steps. -/

namespace Sys2Proof.Proofs

open Sys2Proof.Machine

variable {s t : State}

/-- A value below 2^WMAX keeps the bound when it is stored in 64 bits. -/
theorem toNat_ofNat_lt {v k : Nat} (hv : v < 2 ^ k) : (BitVec.ofNat 64 v).toNat < 2 ^ k := by
  rw [BitVec.toNat_ofNat]
  exact (Nat.mod_le _ _).trans_lt hv

theorem inv_writeR (h : s.Inv) {v : Nat} (hv : v < 2 ^ s.wmax) : (writeR v s).Inv :=
  { h with r_bound := toNat_ofNat_lt hv }

theorem inv_writeResult (h : s.Inv) {v : Nat} (hv : v < 2 ^ s.wmax) : (writeResult v s).Inv :=
  { h with result_bound := toNat_ofNat_lt hv }

/-- The codes that are recorded are 1 to 5 (R93). -/
theorem code_range (e : CmdError) : 1 ≤ e.code.toNat ∧ e.code.toNat ≤ 5 := by
  cases e <;> decide

/-- A refusal keeps the record it finds or writes one whose code is in range (R97). -/
theorem inv_cmdError (h : s.Inv) (e : CmdError) (op : BitVec 8) : (cmdError e op s).Inv := by
  cases herr : s.err with
  | true => rwa [cmdError_of_err e op herr]
  | false =>
    rw [cmdError_of_clear e op herr]
    exact { h with no_error := nofun, error_code := fun _ => code_range e }

theorem inv_clearError (h : s.Inv) : (s.setError false 0 0).Inv :=
  { h with no_error := fun _ => ⟨rfl, rfl⟩, error_code := nofun }

/-- BUILD's table is that of the set it stores, whose width was checked (R26, R28, R65). -/
theorem inv_setTable (h : s.Inv) (hw : s.cfg.width ≤ s.wmax) :
    (s.setTable (buildTable s.cfg)).Inv :=
  { h with
    tctrl_reserved := h.ctrl_reserved
    tctrl_width := hw
    table_built := fun _ => rfl
    no_table := nofun }

/-- The set a command reads has a width its check accepted: for TCFG, BUILD's check (R26, R95). -/
theorem width_le_of_setRead {i : Instr} {P : ParamSet} (h : s.Inv) (hP : SetRead i s P) :
    P.width ≤ s.wmax := by
  obtain ⟨rfl, hw, -⟩ | ⟨rfl, -, -⟩ := hP
  · exact hw
  · exact h.tctrl_width

/-- Every command keeps the invariant: what it writes to R or RESULT is below 2^W of a set with
W ≤ WMAX, or below 2^N with N ≤ WMAX for REFL. -/
theorem exec_inv {i : Instr} (h : s.Inv) (hx : exec i s = .next t) : t.Inv := by
  have bound {P : ParamSet} {v : Nat} (hP : SetRead i s P) (hv : v < 2 ^ P.width) :
      v < 2 ^ s.wmax :=
    hv.trans_le (Nat.pow_le_pow_right two_pos (width_le_of_setRead h hP))
  obtain ⟨-, rfl⟩ | ⟨e, rfl⟩ | ⟨-, rfl⟩ | ⟨-, P, v, hP, hv, rfl⟩ | ⟨-, P, v, hP, hv, rfl⟩ |
    ⟨n, -, hn, rfl⟩ | ⟨-, hw, rfl⟩ := exec_cases hx
  · exact h
  · exact inv_cmdError h e _
  · exact inv_clearError h
  · exact inv_writeR h (bound hP hv)
  · exact inv_writeResult h (bound hP hv)
  · exact inv_writeResult h
      ((reflect_lt _ n).trans_le (Nat.pow_le_pow_right two_pos hn))
  · exact inv_setTable h hw

/-- A write to CTRL clears the reserved bits (R17); no other register that a write stores is in the
invariant. -/
theorem inv_writeReg (h : s.Inv) (reg : PortReg) (v : Word) : (writeReg reg v s).Inv := by
  cases reg with
  | ctrl => exact { h with ctrl_reserved := by rw [writeReg, BitVec.and_assoc, BitVec.and_self] }
  | poly | init | xorout | arg | tidx => exact { h with }
  | cmd | status | rem | result | tctrl | tpoly | tinit | txorout | tdata | caps => exact h

/-- The reset input keeps WMAX and gives every other element of the invariant its value 0 (R109). -/
theorem inv_resetEngine (h : s.Inv) : (resetEngine s).Inv where
  wmax_pos := h.wmax_pos
  wmax_le := h.wmax_le
  ctrl_reserved := BitVec.zero_and
  tctrl_reserved := BitVec.zero_and
  tctrl_width := Nat.zero_le _
  r_bound := Nat.two_pow_pos _
  result_bound := Nat.two_pow_pos _
  table_built := nofun
  no_table := fun _ => ⟨rfl, rfl, rfl, rfl⟩
  no_error := fun _ => ⟨rfl, rfl⟩
  error_code := nofun

/-- The host's lists are not in the invariant. -/
theorem inv_setPending (h : s.Inv) (as : List Access) : (s.setPending as).Inv := { h with }

theorem inv_pushRead (h : s.Inv) (v : Word) : (s.pushRead v).Inv := { h with }

/-- Every access keeps the invariant. -/
theorem perform_inv {a : Access} (h : s.Inv) (ha : perform a s = .next t) : t.Inv := by
  obtain ⟨off, -, rfl⟩ | ⟨-, rfl⟩ | ⟨off, v, -, -, rfl | ⟨reg, -, -, rfl⟩⟩ | ⟨v, e, -, -, rfl⟩ |
    ⟨v, i, -, -, hx⟩ := perform_cases ha
  · exact inv_pushRead h _
  · exact inv_resetEngine h
  · exact h
  · exact inv_writeReg h reg v
  · exact inv_cmdError h e _
  · exact exec_inv h hx

/-- Settles O52: a step is idle or performs one access, and every access keeps the invariant. -/
theorem stepKeepsInvariant : Obligations.StepKeepsInvariant := by
  intro s t h hs
  obtain ⟨-, rfl⟩ | ⟨a, as, -, ha⟩ := step_cases hs
  · exact h
  · exact perform_inv (inv_setPending h as) ha

end Sys2Proof.Proofs
end

section
/-! STATUS, the parameter sets and the step that runs a command word (R14, R16, R17, R22, R23 and
R26 of 10_state.md). -/

namespace Sys2Proof.Proofs

open Sys2Proof.Machine

/-- STATUS is read at offset 0x30 (R35). -/
theorem portRead_status (s : State) : portRead 0x30 s = statusWord s := rfl

/-- Settles O16: appending shifts the fields above by the width of the field below, and the shifts
add up to the places 4, 8 and 1 of R23. -/
theorem statusWordLayout : Obligations.StatusWordLayout := by
  intro s
  rw [portRead_status]
  apply BitVec.eq_of_toNat_eq
  simp only [statusWord, BitVec.toNat_ofNat, BitVec.truncate_eq_setWidth, BitVec.toNat_setWidth,
    BitVec.toNat_append, BitVec.toNat_ofBool, Nat.shiftLeft_or_distrib, ← Nat.shiftLeft_add]
  simp [Nat.or_comm, Nat.or_assoc]

/-- WIDTH is the low seven bits of CTRL (R17). -/
theorem ctrlWidth_eq_mod (c : Word) : ctrlWidth c = c.toNat % 2 ^ 7 := by
  rw [ctrlWidth, BitVec.extractLsb'_toNat, Nat.shiftRight_zero]

/-- The set that four registers hold, its fields by arithmetic on CTRL (R16, R17). -/
theorem ofRegs_eq (c p n x : Word) :
    ParamSet.ofRegs c p n x =
      ⟨c.toNat % 2 ^ 7, p.toNat, n.toNat, x.toNat, c.toNat.testBit 8, c.toNat.testBit 9⟩ := by
  rw [ParamSet.ofRegs, ctrlWidth_eq_mod]
  rfl

/-- The effective polynomial is POLY modulo 2^W (R16). -/
theorem polyE_eq_mod (P : ParamSet) : P.polyE = P.poly % 2 ^ P.width := and_mask ..

/-- The effective initial value is INIT modulo 2^W (R16). -/
theorem initE_eq_mod (P : ParamSet) : P.initE = P.init % 2 ^ P.width := and_mask ..

/-- The effective final XOR is XOROUT modulo 2^W (R16). -/
theorem xoroutE_eq_mod (P : ParamSet) : P.xoroutE = P.xorout % 2 ^ P.width := and_mask ..

/-- Settles O17: both sets are read by ofRegs, and masking is reduction modulo 2^W. -/
theorem parameterSetsReadTheirRegisters : Obligations.ParameterSetsReadTheirRegisters := fun _ =>
  ⟨ofRegs_eq .., ofRegs_eq .., fun P => ⟨polyE_eq_mod P, initE_eq_mod P, xoroutE_eq_mod P⟩⟩

/-- A step that performs the write of a command word is exec of its command, with that access
consumed (R14, R22, R51). -/
theorem step_of_pending_cmd {s : State} {v : Word} {i : Instr} {rest : List Access}
    (hp : s.pending = cmdAccess v :: rest) (hd : decode v = .ok i) :
    step s = exec i (s.setPending rest) := by
  rw [step_of_pending hp, perform_cmdAccess, execute_of_decode hd]

/-- A table word is read as a command just when the decoder accepts it. -/
theorem decode_of_decodeTableWord {nbits w : Nat} {i : Instr}
    (h : decodeTableWord nbits w = some i) : decode (tableWord nbits w) = .ok i := by
  unfold decodeTableWord at h
  cases hd : decode (tableWord nbits w) with
  | error e => rw [hd] at h; cases h
  | ok j => rw [hd] at h; cases h; rfl

/-- Settles O7: 0x28 is CMD's offset, and withFetchWord puts such a write first. -/
theorem stepRunsDecodedCommand : Obligations.StepRunsDecodedCommand :=
  ⟨fun _ _ _ _ hp hd => step_of_pending_cmd hp hd,
    fun _ _ _ _ h => step_of_pending_cmd rfl (decode_of_decodeTableWord h)⟩

end Sys2Proof.Proofs
end

section
/-! Bits at and above W (R16, R72): each datapath function reads its parameters and its operand
modulo 2^W only. -/

namespace Sys2Proof.Proofs

open Sys2Proof.Machine

variable {P Q : ParamSet} {x y : Nat}

/-- BitFold reads W, REFIN, the effective polynomial and the remainder's low W bits (R59). -/
theorem bitFold_congr (hw : P.width = Q.width) (hin : P.refin = Q.refin)
    (hpoly : P.polyE = Q.polyE) (hx : x % 2 ^ P.width = y % 2 ^ P.width) (b n : Nat) :
    bitFold P x b n = bitFold Q y b n := by
  simp only [bitFold, ParamSet.m, and_mask, ← hw, ← hin, ← hpoly, hx]

/-- TableEntry is a fold from 0, aligned by W and REFIN (R64). -/
theorem tableEntry_congr (hw : P.width = Q.width) (hin : P.refin = Q.refin)
    (hpoly : P.polyE = Q.polyE) (b : Nat) : tableEntry P b = tableEntry Q b := by
  rw [tableEntry_eq_bitFold_mul, tableEntry_eq_bitFold_mul, bitFold_congr hw hin hpoly rfl, hw, hin]

section
variable (hw : P.width = Q.width) (hin : P.refin = Q.refin) (hout : P.refout = Q.refout)
  (hxorout : P.xorout % 2 ^ P.width = Q.xorout % 2 ^ P.width)
  (hx : x % 2 ^ P.width = y % 2 ^ P.width)
include hw hin hout hxorout hx

/-- Finalize reads W, both reflection flags and the low W bits of XOROUT and its operand (R70). -/
theorem finalize_congr : finalize P x = finalize Q y := by
  simp only [finalize, and_mask, ← hw, ← hin, ← hout, hxorout, hx]

/-- UndoFinalize reads what Finalize reads (R71). -/
theorem undoFinalize_congr : undoFinalize P x = undoFinalize Q y := by
  simp only [undoFinalize, and_mask, ← hw, ← hin, ← hout, hxorout, hx]

end

/-- Settles O44: one congruence for each datapath function, since the effective values agree. -/
theorem bitsAboveWidthNeverMatter : Obligations.BitsAboveWidthNeverMatter := by
  intro P Q x y b n hw hin hout hpoly hinit hxorout hx
  have hpolyE : P.polyE = Q.polyE := by rw [polyE_eq_mod, polyE_eq_mod, hpoly, hw]
  have hinitE : P.initE = Q.initE := by rw [initE_eq_mod, initE_eq_mod, hinit, hw]
  exact ⟨hinitE, bitFold_congr hw hin hpolyE hx b n, tableEntry_congr hw hin hpolyE b,
    finalize_congr hw hin hout hxorout hx, undoFinalize_congr hw hin hout hxorout hx⟩

end Sys2Proof.Proofs
end

section
/-! The register port (R34 to R36, R38 and R39 of 20_memory.md): what the step of a PortRead and of a
PortWrite is, and the accesses that have no effect. -/

namespace Sys2Proof.Proofs

open Sys2Proof.Machine

variable {s : State} {off : Nat} {v : Word} {rest : List Access}

/-- The step of a PortRead hands its value to the host and does nothing else (R34, R39). -/
theorem step_of_pending_read (hp : s.pending = .read off :: rest) :
    step s = .next ((s.setPending rest).pushRead (portRead off s)) := by
  rw [step_of_pending hp, perform, portRead_setPending]

/-- The step of a PortWrite to a register other than CMD writes that register alone (R35). -/
theorem step_of_pending_write {reg : PortReg} (hreg : reg ≠ .cmd)
    (hp : s.pending = .write reg.offset v :: rest) :
    step s = .next (writeReg reg v (s.setPending rest)) := by
  rw [step_of_pending hp, perform, portWrite_of_ne_cmd hreg]

/-- Every register stands at a multiple of 8 up to 0x78 (R35). -/
theorem unmapped_offset (reg : PortReg) : unmapped reg.offset = false := by
  cases reg <;> rfl

/-- An unmapped access reaches no register (R34). -/
theorem ofOffset_of_unmapped (h : unmapped off = true) : PortReg.ofOffset off = none := by
  cases hr : PortReg.ofOffset off with
  | none => rfl
  | some reg =>
    rw [← offset_of_ofOffset hr, unmapped_offset] at h
    cases h

/-- An unmapped read returns 0 (R34; log entry 6). -/
theorem portRead_of_unmapped (h : unmapped off = true) (s : State) : portRead off s = 0 := by
  rw [portRead, ofOffset_of_unmapped h]

/-- CMD holds nothing to read (R22, R38). -/
theorem portRead_cmd (s : State) : portRead 0x28 s = 0 := rfl

/-- An unmapped write has no effect (R34; log entry 6). -/
theorem portWrite_of_unmapped (h : unmapped off = true) (v : Word) (s : State) :
    portWrite off v s = .next s := by
  rw [portWrite, ofOffset_of_unmapped h]

/-- A write to a read-only register is ignored (R36). -/
theorem portWrite_of_readOnly (h : off ∈ readOnlyOffsets) (v : Word) (s : State) :
    portWrite off v s = .next s := by
  simp only [readOnlyOffsets, List.mem_cons, List.not_mem_nil, or_false] at h
  obtain rfl | rfl | rfl | rfl | rfl | rfl | rfl | rfl | rfl := h <;> rfl

/-- Settles O15: an unmapped offset reaches no register, CMD reads 0, and a read-only register
ignores its write. -/
theorem unmappedAndReadOnlyAccesses : Obligations.UnmappedAndReadOnlyAccesses := by
  intro s off v rest
  constructor
  · intro hp hoff
    have hread : portRead off s = 0 := by
      obtain hoff | rfl := hoff
      · exact portRead_of_unmapped hoff s
      · exact portRead_cmd s
    rw [step_of_pending_read hp, hread]
    rfl
  · intro hp hoff
    rw [step_of_pending hp, perform]
    obtain hoff | hoff := hoff
    · exact portWrite_of_unmapped hoff v _
    · exact portWrite_of_readOnly hoff v _

/-- TDATA reads the word of TABLE that TIDX selects, while a table exists (R30). -/
theorem portRead_tdata (s : State) :
    portRead 0x70 s =
      if s.tvalid = true then s.table.entries.getD s.tidx.toNat 0 else 0 := by
  have hentry : BitVec.ofNat 64 (s.table.entry s.tidx.toNat) =
      s.table.entries.getD s.tidx.toNat 0 := by
    rw [Table.entry, BitVec.ofNat_toNat, BitVec.setWidth_eq]
  rw [← hentry]
  rfl

/-- Settles O13: the step of a read is one lemma, and the column of R35 is readReg's, TDATA's entry
being stored as a word. -/
theorem portReadReturnsTheRegister : Obligations.PortReadReturnsTheRegister :=
  ⟨fun _ _ _ hp => step_of_pending_read hp, fun s =>
    ⟨rfl, rfl, rfl, rfl, rfl, portRead_cmd s, portRead_status s, rfl, rfl, rfl, rfl, rfl, rfl, rfl,
      portRead_tdata s, portRead_caps s⟩⟩

/-- TIDX keeps the low eight bits of the value written (R29). -/
theorem setWidth_eight_eq_mod (v : Word) : v.setWidth 8 = BitVec.ofNat 8 (v.toNat % 2 ^ 8) := by
  apply BitVec.eq_of_toNat_eq
  rw [BitVec.toNat_setWidth, BitVec.toNat_ofNat, Nat.mod_mod]

/-- Settles O14: each of the six offsets is that of a register other than CMD. -/
theorem portWriteStoresTheRegister : Obligations.PortWriteStoresTheRegister := by
  intro s v rest
  refine ⟨step_of_pending_write (reg := .ctrl) nofun, step_of_pending_write (reg := .poly) nofun,
    step_of_pending_write (reg := .init) nofun, step_of_pending_write (reg := .xorout) nofun,
    step_of_pending_write (reg := .arg) nofun, fun hp => ?_⟩
  rw [step_of_pending_write (reg := .tidx) nofun hp, ← setWidth_eight_eq_mod]
  rfl

end Sys2Proof.Proofs
end

section
/-! The decoder (R46 to R50 of 30_encoding.md): the command a word is read as, in terms of its
opcode, its operand fields and its format's mask; decoding and encoding undo each other. -/

namespace Sys2Proof.Proofs

open Sys2Proof.Machine

/-- The command with its operands read from the operand fields of a word (R47). -/
def withOperandsOf (v : Word) : Instr → Instr
  | .feed _ => .feed (dataField v)
  | .feedbits _ _ => .feedbits (dataField v) (nbField v)
  | .tfeed _ => .tfeed (dataField v)
  | .tfeedbits _ _ => .tfeedbits (dataField v) (nbField v)
  | .refl _ => .refl (nField v)
  | i => i

variable {v : Word} {i : Instr}

@[simp] theorem opcode_withOperandsOf (v : Word) (i : Instr) :
    (withOperandsOf v i).opcode = i.opcode := by
  cases i <;> rfl

@[simp] theorem format_withOperandsOf (v : Word) (i : Instr) :
    (withOperandsOf v i).format = i.format := by
  cases i <;> rfl

/-- A word whose OP is a command's opcode names that command, its operands read from the word. -/
theorem byOpcode_of_opField (h : opField v = i.opcode) :
    byOpcode v = some (withOperandsOf v i) := by
  unfold byOpcode
  rw [h]
  cases i <;> rfl

/-- A command that OP names has OP as its opcode and the word's fields as its operands. -/
theorem byOpcode_eq_some_iff :
    byOpcode v = some i ↔ opField v = i.opcode ∧ withOperandsOf v i = i := by
  constructor
  · intro h
    unfold byOpcode at h
    split at h <;> cases h <;> exact ⟨BitVec.eq_of_toNat_eq ‹_›, rfl⟩
  · rintro ⟨hop, hi⟩
    rw [byOpcode_of_opField hop, hi]

/-- A format's mask keeps OP, so a word that agrees with an opcode under it has that OP (R48). -/
theorem opField_of_and_mask (h : v &&& i.format.mask = i.opcode.zeroExtend 64) :
    opField v = i.opcode := by
  have hmask : opField i.format.mask = BitVec.allOnes 8 := by cases i.format <;> decide
  have hop : opField (i.opcode.zeroExtend 64) = i.opcode := by cases i <;> rfl
  have hand : opField (v &&& i.format.mask) = opField v := by
    rw [opField, BitVec.extractLsb'_and]
    exact (congrArg (opField v &&& ·) hmask).trans BitVec.and_allOnes
  rw [← hand, h, hop]

/-- The decoder in one equivalence: a word is a command's when it agrees with the opcode under the
format's mask and holds the operands in its fields (R48, R51). -/
theorem decode_eq_ok_iff :
    decode v = .ok i ↔ v &&& i.format.mask = i.opcode.zeroExtend 64 ∧ withOperandsOf v i = i := by
  constructor
  · intro h
    refine ⟨and_mask_of_decode h, ?_⟩
    unfold decode at h
    split at h
    · cases h
    · rename_i j hj
      split at h <;> cases h
      exact (byOpcode_eq_some_iff.mp hj).2
  · rintro ⟨hmask, hi⟩
    have hby : byOpcode v = some i := byOpcode_eq_some_iff.mpr ⟨opField_of_and_mask hmask, hi⟩
    simp [decode, hby, rowMatches, hmask]

/-- A word that agrees with a command's opcode under its format's mask decodes to that command with
the word's operands. -/
theorem decode_of_and_mask (h : v &&& i.format.mask = i.opcode.zeroExtend 64) :
    decode v = .ok (withOperandsOf v i) :=
  decode_eq_ok_iff.mpr ⟨by simpa using h, by cases i <;> rfl⟩

/-- The decoder refuses with ILLOP exactly the words whose OP names no command. -/
theorem decode_eq_illop_iff : decode v = .error .illop ↔ byOpcode v = none := by
  unfold decode
  cases byOpcode v with
  | none => simp
  | some i => cases hr : rowMatches v i <;> simp [hr]

/-- The decoder raises no other errors than ILLOP and RSVD. -/
theorem illop_or_rsvd_of_decode {e : CmdError} (h : decode v = .error e) :
    e = .illop ∨ e = .rsvd := by
  unfold decode at h
  split at h
  · cases h; exact .inl rfl
  · split at h <;> cases h
    exact .inr rfl

/-- The operand fields are read within the ranges of R53. -/
theorem withOperandsOf_wellFormed (v : Word) (i : Instr) : (withOperandsOf v i).WellFormed := by
  have hdata : dataField v ≤ 255 := Nat.le_of_lt_succ (v.extractLsb' 8 8).isLt
  have hnb : nbField v ≤ 7 := Nat.le_of_lt_succ (v.extractLsb' 16 3).isLt
  have hn : nField v ≤ 127 := Nat.le_of_lt_succ (v.extractLsb' 16 7).isLt
  cases i <;> simp [withOperandsOf, Instr.WellFormed, Instr.wellFormed, hdata, hnb, hn]

/-- A field of a word, shifted back to its place, is the word under the field's mask. -/
theorem ofNat_field_shiftLeft (v : Word) (lo len : Nat) :
    BitVec.ofNat 64 ((v.extractLsb' lo len).toNat <<< lo) =
      v &&& BitVec.ofNat 64 ((2 ^ len - 1) <<< lo) := by
  refine BitVec.eq_of_getLsbD_eq fun k hk => ?_
  rw [BitVec.getLsbD_and, BitVec.getLsbD_ofNat, BitVec.getLsbD_ofNat, Nat.testBit_shiftLeft,
    Nat.testBit_shiftLeft, Nat.testBit_two_pow_sub_one, BitVec.testBit_toNat,
    BitVec.getLsbD_extractLsb']
  by_cases hlo : lo ≤ k
  · simp [hlo, hk, Bool.and_comm]
  · simp [hlo]

/-- The operand bits of a command whose operands are a word's fields are that word's bits outside
the format's mask. -/
theorem operandBits_withOperandsOf (v : Word) (i : Instr) :
    BitVec.ofNat 64 (withOperandsOf v i).operandBits = v &&& ~~~i.format.mask := by
  cases i with
  | feed _ | tfeed _ =>
    have hmask : ~~~Format.b.mask = BitVec.ofNat 64 ((2 ^ 8 - 1) <<< 8) := by decide
    exact (ofNat_field_shiftLeft v 8 8).trans (congrArg (v &&& ·) hmask.symm)
  | refl _ =>
    have hmask : ~~~Format.n.mask = BitVec.ofNat 64 ((2 ^ 7 - 1) <<< 16) := by decide
    exact (ofNat_field_shiftLeft v 16 7).trans (congrArg (v &&& ·) hmask.symm)
  | feedbits _ _ | tfeedbits _ _ =>
    have hmask : ~~~Format.k.mask =
        BitVec.ofNat 64 ((2 ^ 8 - 1) <<< 8) ||| BitVec.ofNat 64 ((2 ^ 3 - 1) <<< 16) := by decide
    simp only [withOperandsOf, Instr.operandBits, Instr.format, hmask, dataField, nbField,
      BitVec.ofNat_or, ofNat_field_shiftLeft, BitVec.and_or_distrib_left]
  | nop | seed | resume | fin | unfin | finx | build | tseed | tresume | tfin | tunfin | tfinx
  | clrerr => exact BitVec.and_zero.symm

/-- A command's word is its opcode beside its operand bits (R53). -/
theorem encode_eq_or (i : Instr) :
    encode i = i.opcode.zeroExtend 64 ||| BitVec.ofNat 64 i.operandBits := by
  rw [encode, BitVec.ofNat_or, BitVec.ofNat_toNat]

/-- Settles O2: a word is its bits under the mask, which are the opcode, and its bits outside the
mask, which are the operands. -/
theorem encodeInvertsDecode : Obligations.EncodeInvertsDecode := by
  intro v i h
  obtain ⟨hmask, hi⟩ := decode_eq_ok_iff.mp h
  refine ⟨hi ▸ withOperandsOf_wellFormed v i, ?_⟩
  have hbits := operandBits_withOperandsOf v i
  rw [hi] at hbits
  rw [encode_eq_or, hbits, ← hmask, ← BitVec.and_or_distrib_left, BitVec.or_not_self,
    BitVec.and_allOnes]

/-- The word of a command whose operand bits are k places above OP, as a number (R47, R53). -/
theorem toNat_encode {k : Nat} (hk : i.operandBits = k * 2 ^ 8) (h : k < 2 ^ 15) :
    (encode i).toNat = k * 2 ^ 8 + i.opcode.toNat := by
  have hop := i.opcode.isLt
  rw [encode, hk, Nat.or_comm, Nat.mul_comm, ← Nat.two_pow_add_eq_or_of_lt hop,
    BitVec.toNat_ofNat]
  omega

section
variable {k d : Nat} (hk : i.operandBits = k * 2 ^ 8) (h : k < 2 ^ 15)
include hk h

/-! The operand fields of a command's word: DATA begins at the first of the bits above OP, NB and N
at the ninth (R47). -/

theorem dataField_encode (hd : k % 2 ^ 8 = d) : dataField (encode i) = d := by
  have hop := i.opcode.isLt
  rw [dataField, BitVec.extractLsb'_toNat, Nat.shiftRight_eq_div_pow, toNat_encode hk h]
  omega

theorem nbField_encode (hd : k / 2 ^ 8 % 2 ^ 3 = d) : nbField (encode i) = d := by
  have hop := i.opcode.isLt
  rw [nbField, BitVec.extractLsb'_toNat, Nat.shiftRight_eq_div_pow, toNat_encode hk h]
  omega

theorem nField_encode (hd : k / 2 ^ 8 = d) : nField (encode i) = d := by
  have hop := i.opcode.isLt
  rw [nField, BitVec.extractLsb'_toNat, Nat.shiftRight_eq_div_pow, toNat_encode hk h]
  omega

end

/-- A well-formed command's word holds its operands in their fields (R47, R53). -/
theorem withOperandsOf_encode (h : i.WellFormed) : withOperandsOf (encode i) i = i := by
  cases i with
  | feed d | tfeed d =>
    simp only [Instr.WellFormed, Instr.wellFormed, decide_eq_true_eq] at h
    rw [withOperandsOf]
    congr 1
    exact dataField_encode (Nat.shiftLeft_eq d 8) (by omega) (by omega)
  | feedbits d nb | tfeedbits d nb =>
    simp only [Instr.WellFormed, Instr.wellFormed, Bool.and_eq_true, decide_eq_true_eq] at h
    obtain ⟨hd, hnb⟩ := h
    have hk := Laws.OpcodeByte.operandBits_k (nb := nb) hd
    rw [withOperandsOf]
    congr 1
    · exact dataField_encode hk (by omega) (by omega)
    · exact nbField_encode hk (by omega) (by omega)
  | refl n =>
    simp only [Instr.WellFormed, Instr.wellFormed, decide_eq_true_eq] at h
    have hk : n <<< 16 = n * 2 ^ 8 * 2 ^ 8 := by rw [Nat.shiftLeft_eq]; omega
    rw [withOperandsOf]
    congr 1
    exact nField_encode hk (by omega) (by omega)
  | nop | seed | resume | fin | unfin | finx | build | tseed | tresume | tfin | tunfin | tfinx
  | clrerr => rfl

/-- A well-formed command's word agrees with its opcode under its format's mask (R48, R53). -/
theorem encode_and_mask (h : i.WellFormed) :
    encode i &&& i.format.mask = i.opcode.zeroExtend 64 := by
  have hbits : BitVec.ofNat 64 i.operandBits &&& i.format.mask = 0 := by
    rw [← withOperandsOf_encode h, operandBits_withOperandsOf, format_withOperandsOf,
      BitVec.and_assoc, BitVec.not_and_self]
    exact BitVec.and_zero
  have hop : i.opcode.zeroExtend 64 &&& i.format.mask = i.opcode.zeroExtend 64 := by
    cases i <;> simp [Instr.opcode, Instr.format, Format.mask]
  rw [encode_eq_or, BitVec.and_or_distrib_right, hop, hbits]
  exact BitVec.or_zero

/-- Settles O1: a word of a command holds the opcode under the mask and the operands in their
fields, which is all that the decoder asks. -/
theorem decodeInvertsEncode : Obligations.DecodeInvertsEncode := fun _ h =>
  decode_eq_ok_iff.mpr ⟨encode_and_mask h, withOperandsOf_encode h⟩

/-- Settles O3: the words are literals, which the decoder evaluates. -/
theorem specWordsDecode : Obligations.SpecWordsDecode := by
  unfold Obligations.SpecWordsDecode
  decide

/-- OP names no command exactly when R50 lists it (R49, R50). -/
theorem byOpcode_eq_none_iff : byOpcode v = none ↔ illegalOp (opField v).toNat = true := by
  have hop := (opField v).isLt
  unfold byOpcode
  split
  case h_19 =>
    simp only [imp_false] at *
    simp only [illegalOp, Bool.or_eq_true, Bool.and_eq_true, decide_eq_true_eq, true_iff]
    omega
  all_goals simp [illegalOp, *]

/-- Settles O4: the decoder answers ILLOP when OP names no command, and those are R50's. -/
theorem illegalOpcodesAreIllop : Obligations.IllegalOpcodesAreIllop := fun _ =>
  decode_eq_illop_iff.trans byOpcode_eq_none_iff

/-- A row of the opcode table is a command's: its bits are the opcode, its mask the format's. -/
def RowOf (row : OpcodeRow) (i : Instr) : Prop :=
  row.matchBits = i.opcode.zeroExtend 64 ∧ row.maskBits = i.format.mask

/-- Every command has a row (R49). -/
theorem exists_row (i : Instr) : ∃ row ∈ opcodeRows, RowOf row i := by
  cases i <;> simp [opcodeRows, RowOf, Instr.opcode, Instr.format, Format.mask]

/-- Every row is some command's (R49). -/
theorem exists_command {row : OpcodeRow} (h : row ∈ opcodeRows) : ∃ i, RowOf row i := by
  simp only [opcodeRows, List.mem_cons, List.not_mem_nil, or_false] at h
  obtain rfl | rfl | rfl | rfl | rfl | rfl | rfl | rfl | rfl | rfl | rfl | rfl | rfl | rfl | rfl |
    rfl | rfl | rfl := h
  exacts [⟨.nop, rfl, rfl⟩, ⟨.seed, rfl, rfl⟩, ⟨.resume, rfl, rfl⟩, ⟨.feed 0, rfl, rfl⟩,
    ⟨.feedbits 0 0, rfl, rfl⟩, ⟨.fin, rfl, rfl⟩, ⟨.unfin, rfl, rfl⟩, ⟨.finx, rfl, rfl⟩,
    ⟨.build, rfl, rfl⟩, ⟨.tseed, rfl, rfl⟩, ⟨.tresume, rfl, rfl⟩, ⟨.tfeed 0, rfl, rfl⟩,
    ⟨.tfeedbits 0 0, rfl, rfl⟩, ⟨.tfin, rfl, rfl⟩, ⟨.tunfin, rfl, rfl⟩, ⟨.tfinx, rfl, rfl⟩,
    ⟨.refl 0, rfl, rfl⟩, ⟨.clrerr, rfl, rfl⟩]

theorem mem_matchingRows {row : OpcodeRow} :
    row ∈ matchingRows v ↔ row ∈ opcodeRows ∧ v &&& row.maskBits = row.matchBits := by
  simp [matchingRows]

/-- The decoder and the opcode table accept the same words. -/
theorem exists_decode_iff : (∃ i, decode v = .ok i) ↔ matchingRows v ≠ [] := by
  constructor
  · rintro ⟨i, hi⟩
    obtain ⟨row, hrow, hmatch, hmask⟩ := exists_row i
    have hv : v &&& row.maskBits = row.matchBits := by rw [hmatch, hmask, and_mask_of_decode hi]
    exact List.ne_nil_of_mem (mem_matchingRows.mpr ⟨hrow, hv⟩)
  · intro h
    obtain ⟨row, hrow⟩ := List.exists_mem_of_ne_nil _ h
    obtain ⟨hmem, hv⟩ := mem_matchingRows.mp hrow
    obtain ⟨i, hmatch, hmask⟩ := exists_command hmem
    exact ⟨_, decode_of_and_mask (by rw [← hmatch, ← hmask, hv])⟩

/-- The bits of a row that a word matches are the word's OP. -/
theorem matchBits_of_mem_matchingRows {row : OpcodeRow} (h : row ∈ matchingRows v) :
    row.matchBits = (opField v).zeroExtend 64 := by
  obtain ⟨hmem, hv⟩ := mem_matchingRows.mp h
  obtain ⟨i, hmatch, hmask⟩ := exists_command hmem
  rw [hmatch, hmask] at hv
  rw [hmatch, opField_of_and_mask hv]

/-- No word matches two rows: their bits would both be the word's OP, and rows differ in them. -/
theorem length_matchingRows_le_one (v : Word) : (matchingRows v).length ≤ 1 := by
  have hdistinct : (matchingRows v).Pairwise fun a b => a.matchBits ≠ b.matchBits :=
    List.Pairwise.filter _ (by decide)
  have hop : ∀ row ∈ matchingRows v, row.matchBits = (opField v).zeroExtend 64 :=
    fun _ => matchBits_of_mem_matchingRows
  match hrows : matchingRows v with
  | [] | [_] => simp
  | a :: b :: rest =>
    rw [hrows] at hdistinct hop
    have hab : a.matchBits ≠ b.matchBits := (List.pairwise_cons.mp hdistinct).1 b (by simp)
    exact absurd ((hop a (by simp)).trans (hop b (by simp)).symm) hab

/-- Settles O5: a word matches at most one row, and decodes when it matches any. -/
theorem decodesIffOneTableRowMatches : Obligations.DecodesIffOneTableRowMatches := by
  intro v
  have hle := length_matchingRows_le_one v
  refine ⟨hle, exists_decode_iff.trans ?_⟩
  rw [← List.length_pos_iff]
  omega

end Sys2Proof.Proofs
end

section
/-! Execute(v) and the step (R51, R52, R95 to R98): which test refuses a command word, and that every
command, access and step answers a next state. -/

namespace Sys2Proof.Proofs

open Sys2Proof.Machine

variable {v : Word} {i : Instr} {s : State}

/-- The error record of STATUS (R23). -/
def errorRecord (s : State) : Bool × BitVec 4 × BitVec 8 := (s.err, s.errcode, s.errop)

/-- A command that reads CFG makes that set's check, and its effect leaves the error record. -/
theorem exec_of_readsCfg (h : i.readsCfg = true) (s : State) :
    ∃ effect, exec i s = onCfg i s effect ∧ ∀ P, errorRecord (effect P) = errorRecord s := by
  cases i with
  | seed => exact ⟨_, exec_seed s, fun _ => rfl⟩
  | resume => exact ⟨_, exec_resume s, fun _ => rfl⟩
  | feed d => exact ⟨_, exec_feed s d, fun _ => rfl⟩
  | feedbits d nb => exact ⟨_, exec_feedbits s d nb, fun _ => rfl⟩
  | fin => exact ⟨_, exec_fin s, fun _ => rfl⟩
  | unfin => exact ⟨_, exec_unfin s, fun _ => rfl⟩
  | finx => exact ⟨_, exec_finx s, fun _ => rfl⟩
  | build => exact ⟨_, exec_build s, fun _ => rfl⟩
  | _ => cases h

/-- A table command makes the check on TCFG, and its effect leaves the error record. -/
theorem exec_of_readsTcfg (h : i.readsTcfg = true) (s : State) :
    ∃ effect, exec i s = onTcfg i s effect ∧ ∀ P, errorRecord (effect P) = errorRecord s := by
  cases i with
  | tseed => exact ⟨_, exec_tseed s, fun _ => rfl⟩
  | tresume => exact ⟨_, exec_tresume s, fun _ => rfl⟩
  | tfeed d => exact ⟨_, exec_tfeed s d, fun _ => rfl⟩
  | tfeedbits d nb => exact ⟨_, exec_tfeedbits s d nb, fun _ => rfl⟩
  | tfin => exact ⟨_, exec_tfin s, fun _ => rfl⟩
  | tunfin => exact ⟨_, exec_tunfin s, fun _ => rfl⟩
  | tfinx => exact ⟨_, exec_tfinx s, fun _ => rfl⟩
  | _ => cases h

/-- A command reads one of the two sets or is REFL, NOP or CLRERR (R93, R95). -/
theorem command_classes (i : Instr) :
    i.readsCfg = true ∨ i.readsTcfg = true ∨ (∃ n, i = .refl n) ∨ i = .nop ∨ i = .clrerr := by
  cases i <;> simp [Instr.readsCfg, Instr.readsTcfg]

/-- Every command answers a next state: it is refused in one or has its effect (R52, R98). -/
theorem exists_next_exec (i : Instr) (s : State) : ∃ t, exec i s = .next t := by
  obtain hi | hi | ⟨n, rfl⟩ | rfl | rfl := command_classes i
  · obtain ⟨effect, hx, -⟩ := exec_of_readsCfg hi s
    rw [hx, onCfg]
    split <;> exact ⟨_, rfl⟩
  · obtain ⟨effect, hx, -⟩ := exec_of_readsTcfg hi s
    rw [hx, onTcfg]
    split <;> exact ⟨_, rfl⟩
  · rw [exec_refl, execRefl]
    split <;> exact ⟨_, rfl⟩
  · exact ⟨_, exec_nop s⟩
  · exact ⟨_, exec_clrerr s⟩

/-- Every command word answers a next state. -/
theorem exists_next_execute (v : Word) (s : State) : ∃ t, execute v s = .next t := by
  cases hd : decode v with
  | error e => exact ⟨_, execute_of_error hd s⟩
  | ok i => rw [execute_of_decode hd]; exact exists_next_exec i s

/-- Every access answers a next state. -/
theorem exists_next_perform (a : Access) (s : State) : ∃ t, perform a s = .next t := by
  cases a with
  | read off => exact ⟨_, rfl⟩
  | reset => exact ⟨_, rfl⟩
  | write off v =>
    rw [perform, portWrite]
    split
    · exact exists_next_execute v s
    · exact ⟨_, rfl⟩
    · exact ⟨_, rfl⟩

/-- Settles O11: a step is idle or performs one access, which answers a next state. -/
theorem everyStepAnswersNext : Obligations.EveryStepAnswersNext := by
  refine ⟨exists_next_exec, fun s => ?_, fun s => step_of_idle⟩
  cases hp : s.pending with
  | nil => exact ⟨s, step_of_idle hp⟩
  | cons a as => rw [step_of_pending hp]; exact exists_next_perform a _

/-- Settles O8: the step refuses the word, and a refusal writes the error record only if it is clear. -/
theorem stepRefusesUndecodedWord : Obligations.StepRefusesUndecodedWord := by
  intro s v e rest hp hd
  have hstep : step s = .next (cmdError e (opField v) (s.setPending rest)) := by
    rw [step_of_pending hp]
    exact (perform_cmdAccess v _).trans (execute_of_error hd _)
  rw [hstep]
  split
  case isTrue herr => rw [cmdError_of_err (s := s.setPending rest) e _ herr]; rfl
  case isFalse herr =>
    rw [cmdError_of_clear (s := s.setPending rest) e _ (Bool.eq_false_of_not_eq_true herr)]; rfl

/-- A word of an opcode that no row of the table matches is refused with RSVD (R50). -/
theorem decode_eq_rsvd (hop : illegalOp (opField v).toNat ≠ true) (hrows : matchingRows v = []) :
    decode v = .error .rsvd := by
  cases hd : decode v with
  | ok i => exact absurd hrows (exists_decode_iff.mp ⟨i, hd⟩)
  | error e =>
    obtain rfl | rfl := illop_or_rsvd_of_decode hd
    · exact absurd (illegalOpcodesAreIllop v |>.mp hd) hop
    · rfl

/-- The table commands are the opcodes 0x11 to 0x17 (R95). -/
theorem readsTcfg_iff (i : Instr) :
    i.readsTcfg = true ↔ 0x11 ≤ i.opcode.toNat ∧ i.opcode.toNat ≤ 0x17 := by
  cases i <;> simp [Instr.readsTcfg, Instr.opcode]

/-- The commands on the live set are the opcodes 0x01 to 0x08 (R95). -/
theorem readsCfg_iff (i : Instr) :
    i.readsCfg = true ↔ 0x01 ≤ i.opcode.toNat ∧ i.opcode.toNat ≤ 0x08 := by
  cases i <;> simp [Instr.readsCfg, Instr.opcode]

/-- REFL is the opcode 0x20, and its N is v[22:16] (R47, R49). -/
theorem eq_refl_iff (hd : decode v = .ok i) :
    i.opcode.toNat = 0x20 ↔ i = .refl (v.toNat / 2 ^ 16 % 2 ^ 7) := by
  obtain ⟨-, hi⟩ := decode_eq_ok_iff.mp hd
  cases i with
  | refl n =>
    have hn : nField v = n := Instr.refl.inj hi
    rw [nField, BitVec.extractLsb'_toNat, Nat.shiftRight_eq_div_pow] at hn
    rw [hn]
    exact iff_of_true rfl rfl
  | _ => simp [Instr.opcode]

/-- A command that passes the test of R51 which concerns it is performed: it leaves the error record,
but for CLRERR, which clears it. -/
theorem exec_of_accepted (htcfg : i.readsTcfg = true → s.tvalid = true)
    (hcfg : i.readsCfg = true → s.cfg.width ≤ s.wmax) (hrefl : ∀ n, i = .refl n → n ≤ s.wmax) :
    ∃ t, exec i s = .next t ∧
      errorRecord t = if i = .clrerr then (false, 0, 0) else errorRecord s := by
  obtain hi | hi | ⟨n, rfl⟩ | rfl | rfl := command_classes i
  · obtain ⟨effect, hx, hrec⟩ := exec_of_readsCfg hi s
    have hne : i ≠ .clrerr := by rintro rfl; cases hi
    exact ⟨_, hx.trans (onCfg_of_le i effect (hcfg hi)), by rw [hrec, if_neg hne]⟩
  · obtain ⟨effect, hx, hrec⟩ := exec_of_readsTcfg hi s
    have hne : i ≠ .clrerr := by rintro rfl; cases hi
    exact ⟨_, hx.trans (onTcfg_of_valid i effect (htcfg hi)), by rw [hrec, if_neg hne]⟩
  · rw [exec_refl, execRefl, if_neg (hrefl n rfl).not_gt]
    exact ⟨_, rfl, rfl⟩
  · exact ⟨_, exec_nop s, rfl⟩
  · exact ⟨_, exec_clrerr s, rfl⟩

/-- Settles O10: the decoder makes the first two tests, and the opcode says which of the other three
concerns the command. -/
theorem errorPriority : Obligations.ErrorPriority := by
  intro v s op refuse
  split_ifs with hill hrows htcfg hcfg hrefl
  · exact execute_of_error ((illegalOpcodesAreIllop v).mpr hill) s
  · exact execute_of_error (decode_eq_rsvd hill hrows) s
  all_goals
    obtain ⟨i, hd⟩ := exists_decode_iff.mpr hrows
    have hop : opField v = i.opcode := opField_of_and_mask (and_mask_of_decode hd)
    rw [execute_of_decode hd]
    simp only [op, refuse, hop, ← readsTcfg_iff, ← readsCfg_iff, eq_refl_iff hd] at *
  · obtain ⟨effect, hx, -⟩ := exec_of_readsTcfg htcfg.1 s
    exact hx.trans (onTcfg_of_invalid i effect htcfg.2)
  · obtain ⟨effect, hx, -⟩ := exec_of_readsCfg hcfg.1 s
    exact hx.trans (onCfg_of_lt i effect hcfg.2)
  · obtain ⟨hi, hn⟩ := hrefl
    rw [hi, exec_refl, execRefl, if_pos hn]
  · have hN : ∀ n, i = .refl n → n ≤ s.wmax := by
      rintro n rfl
      have hn : Instr.refl n = .refl (v.toNat / 2 ^ 16 % 2 ^ 7) := (eq_refl_iff hd).mp rfl
      rw [Instr.refl.inj hn]
      exact Nat.not_lt.mp fun hlt => hrefl ⟨hn, hlt⟩
    obtain ⟨t, hx, hrec⟩ := exec_of_accepted (i := i) (s := s)
      (fun hi => Bool.eq_true_of_not_eq_false fun hv => htcfg ⟨hi, hv⟩)
      (fun hi => Nat.not_lt.mp fun hw => hcfg ⟨hi, hw⟩) hN
    exact ⟨i, t, hd, rfl, hx, hrec⟩

end Sys2Proof.Proofs
end

section
/-! The pseudo-instructions (R54 of 30_encoding.md): what their lines assemble to, and how a buffer
of bits is cut into whole bytes and trailing bits. -/

namespace Sys2Proof.Proofs

open Sys2Proof.Machine

/-- A well-formed command's line is its word's access (R53). -/
theorem access_cmd {i : Instr} (h : i.WellFormed) :
    (Line.cmd i).access = some (cmdAccess (encode i)) := by
  rw [Line.access, assembleInstr, if_pos h, Option.map_some]

/-- A 64-bit value's register-write line is that PortWrite (R53). -/
theorem access_wr {v : Nat} (reg : PortReg) (h : v < 2 ^ 64) :
    (Line.wr reg v).access = some (.write reg.offset (BitVec.ofNat 64 v)) := by
  rw [Line.access, if_pos h]

theorem assemble_cons {l : Line} {ls : List Line} {a : Access} {as : List Access}
    (hl : l.access = some a) (hls : assemble ls = some as) :
    assemble (l :: ls) = some (a :: as) := by
  rw [assemble, hl, hls]

/-- Lines of well-formed commands assemble to their words' accesses. -/
theorem assemble_cmds {is : List Instr} (h : ∀ i ∈ is, i.WellFormed) :
    assemble (is.map .cmd) = some (cmds is) := by
  induction is with
  | nil => rfl
  | cons i is ih =>
    obtain ⟨hi, his⟩ := List.forall_mem_cons.mp h
    exact assemble_cons (access_cmd hi) (ih his)

section
variable {p : Pseudo} {seeding ending : List Instr} {byte : Nat → Instr} {ds : List Nat}
  (hseeding : ∀ i ∈ seeding, i.WellFormed) (hbytes : ∀ d ∈ ds, (byte d).WellFormed)
  (hending : ∀ i ∈ ending, i.WellFormed)
include hseeding hbytes hending

/-- The lines of a call assemble to its accesses when all its commands are well-formed (R88). -/
theorem assemble_call :
    assemble ((seeding ++ ds.map byte ++ ending).map .cmd) =
      some (callCmds seeding byte ds ending) := by
  refine assemble_cmds fun i hi => ?_
  rw [List.mem_append, List.mem_append, List.mem_map] at hi
  obtain (hi | ⟨d, hd, rfl⟩) | hi := hi
  · exact hseeding i hi
  · exact hbytes d hd
  · exact hending i hi

/-- A pseudo-instruction that expands to the lines of a call assembles to its accesses. -/
theorem accesses_call (h : p.expand = some ((seeding ++ ds.map byte ++ ending).map .cmd)) :
    p.accesses = some (callCmds seeding byte ds ending) := by
  rw [Pseudo.accesses, h]
  exact assemble_call hseeding hbytes hending

/-- One whose expansion first writes a value to ARG assembles to that PortWrite and the call. -/
theorem accesses_arg_call {v : Nat} (hv : v < 2 ^ 64)
    (h : p.expand = some (.wr .arg v :: (seeding ++ ds.map byte ++ ending).map .cmd)) :
    p.accesses =
      some (.write 0x20 (BitVec.ofNat 64 v) :: callCmds seeding byte ds ending) := by
  rw [Pseudo.accesses, h]
  exact assemble_cons (access_wr .arg hv) (assemble_call hseeding hbytes hending)

end

section
variable (byte : Nat → Instr) (bits : Nat → Nat → Instr) (ds es : List Nat)

/-- A buffer of whole bytes expands to one line for each (R54). -/
theorem bitsLines_whole :
    bitsLines byte bits (ds ++ es) (8 * ds.length) = some ((ds.map byte).map .cmd) := by
  have hdiv : 8 * ds.length / 8 = ds.length := by omega
  simp [bitsLines, trailingLines, hdiv]

/-- A buffer with trailing bits expands to one line for each whole byte and one for the leading bits
of the byte after them (R54). -/
theorem bitsLines_trailing (d : Nat) {nb : Nat} (h1 : 1 ≤ nb) (h7 : nb ≤ 7) :
    bitsLines byte bits (ds ++ d :: es) (8 * ds.length + nb) =
      some ((ds.map byte ++ [bits d nb]).map .cmd) := by
  have hdiv : (8 * ds.length + nb) / 8 = ds.length := by omega
  have hmod : (8 * ds.length + nb) % 8 = nb := by omega
  have hnb : nb ≠ 0 := by omega
  simp [bitsLines, trailingLines, hdiv, hmod, hnb]

end

/-- CTRL's fields lie side by side, so config's OR of them is their sum (R17, R54). -/
theorem ctrl_fields_or {W ri ro : Nat} (hW : W < 2 ^ 7) (hri : ri < 2) :
    W ||| ri <<< 8 ||| ro <<< 9 = W + ri * 2 ^ 8 + ro * 2 ^ 9 := by
  have hlow : W ||| ri <<< 8 = 2 ^ 8 * ri + W := by
    rw [Nat.or_comm, Nat.shiftLeft_eq, Nat.mul_comm, ← Nat.two_pow_add_eq_or_of_lt (by omega)]
  have hall : (2 ^ 8 * ri + W) ||| ro <<< 9 = 2 ^ 9 * ro + (2 ^ 8 * ri + W) := by
    rw [Nat.or_comm, Nat.shiftLeft_eq, Nat.mul_comm ro, ← Nat.two_pow_add_eq_or_of_lt (by omega)]
  rw [hlow, hall]
  omega

/-- config writes the four registers of the live set (R54). -/
theorem accesses_config {W p i x ri ro : Nat} (hW : W < 2 ^ 7) (hp : p < 2 ^ 64)
    (hi : i < 2 ^ 64) (hx : x < 2 ^ 64) (hri : ri < 2) (hro : ro < 2) :
    (Pseudo.config W p i x ri ro).accesses =
      some [.write 0x00 (BitVec.ofNat 64 (W + ri * 2 ^ 8 + ro * 2 ^ 9)),
        .write 0x08 (BitVec.ofNat 64 p), .write 0x10 (BitVec.ofNat 64 i),
        .write 0x18 (BitVec.ofNat 64 x)] := by
  rw [Pseudo.accesses, Pseudo.expand, ctrl_fields_or hW hri]
  exact assemble_cons (access_wr .ctrl (by omega)) <| assemble_cons (access_wr .poly hp) <|
    assemble_cons (access_wr .init hi) <| assemble_cons (access_wr .xorout hx) rfl

/-- reflect writes ARG and issues REFL (R54). -/
theorem accesses_reflect {v n : Nat} (hv : v < 2 ^ 64) (hn : n ≤ 127) :
    (Pseudo.reflect v n).accesses = some (.write 0x20 (BitVec.ofNat 64 v) :: cmds [.refl n]) := by
  have hrefl : (Instr.refl n).WellFormed := decide_eq_true hn
  rw [Pseudo.accesses, Pseudo.expand]
  exact assemble_cons (access_wr .arg hv) (assemble_cons (access_cmd hrefl) rfl)

/-- The pseudo-instructions on a buffer of whole bytes (R54). -/
theorem accesses_bytes {ds : List Nat} (hds : ∀ d ∈ ds, d ≤ 255) :
    (Pseudo.feedbuf ds).accesses = some (callCmds [] .feed ds []) ∧
      (Pseudo.tfeedbuf ds).accesses = some (callCmds [] .tfeed ds []) ∧
      (Pseudo.calc ds).accesses = some (callCmds [.seed] .feed ds [.fin]) ∧
      (Pseudo.tcalc ds).accesses = some (callCmds [.tseed] .tfeed ds [.tfin]) ∧
      ∀ crc < 2 ^ 64,
        (Pseudo.calcprior ds crc).accesses =
          some (.write 0x20 (BitVec.ofNat 64 crc) :: callCmds [.resume] .feed ds [.fin]) ∧
        (Pseudo.tcalcprior ds crc).accesses =
          some (.write 0x20 (BitVec.ofNat 64 crc) :: callCmds [.tresume] .tfeed ds [.tfin]) := by
  have hfeed : ∀ d ∈ ds, (Instr.feed d).WellFormed := fun d hd => decide_eq_true (hds d hd)
  have htfeed : ∀ d ∈ ds, (Instr.tfeed d).WellFormed := fun d hd => decide_eq_true (hds d hd)
  refine ⟨?_, ?_, ?_, ?_, fun crc hcrc => ⟨?_, ?_⟩⟩
  · exact accesses_call (by decide) hfeed (by decide) (by simp [Pseudo.expand, feedLines])
  · exact accesses_call (by decide) htfeed (by decide) (by simp [Pseudo.expand, tfeedLines])
  · exact accesses_call (by decide) hfeed (by decide)
      (by simp [Pseudo.expand, seedLines, feedLines])
  · exact accesses_call (by decide) htfeed (by decide)
      (by simp [Pseudo.expand, seedLines, tfeedLines])
  · exact accesses_arg_call (by decide) hfeed (by decide) hcrc
      (by simp [Pseudo.expand, seedLines, feedLines])
  · exact accesses_arg_call (by decide) htfeed (by decide) hcrc
      (by simp [Pseudo.expand, seedLines, tfeedLines])

/-- Pseudo-instructions with one expansion assemble to the same accesses. -/
theorem accesses_congr {p q : Pseudo} (h : p.expand = q.expand) : p.accesses = q.accesses := by
  rw [Pseudo.accesses, Pseudo.accesses, h]

/-- On a whole number of bytes the bit-granular pseudo-instructions are the others (R54). -/
theorem accesses_bits_whole (ds es : List Nat) :
    (Pseudo.feedbitsbuf (ds ++ es) (8 * ds.length)).accesses = (Pseudo.feedbuf ds).accesses ∧
      (Pseudo.tfeedbitsbuf (ds ++ es) (8 * ds.length)).accesses =
        (Pseudo.tfeedbuf ds).accesses ∧
      (Pseudo.calcbits (ds ++ es) (8 * ds.length) none).accesses = (Pseudo.calc ds).accesses ∧
      (Pseudo.tcalcbits (ds ++ es) (8 * ds.length) none).accesses = (Pseudo.tcalc ds).accesses ∧
      ∀ crc,
        (Pseudo.calcbits (ds ++ es) (8 * ds.length) (some crc)).accesses =
          (Pseudo.calcprior ds crc).accesses ∧
        (Pseudo.tcalcbits (ds ++ es) (8 * ds.length) (some crc)).accesses =
          (Pseudo.tcalcprior ds crc).accesses := by
  have hlive := bitsLines_whole .feed .feedbits ds es
  have htable := bitsLines_whole .tfeed .tfeedbits ds es
  rw [List.map_map] at hlive htable
  refine ⟨accesses_congr hlive, accesses_congr htable, accesses_congr ?_, accesses_congr ?_,
    fun crc => ⟨accesses_congr ?_, accesses_congr ?_⟩⟩
  all_goals
    simp only [Pseudo.expand, hlive, htable]
    rfl

/-- On a buffer with trailing bits the bit-granular pseudo-instructions issue the commands of their
whole bytes, then one for the leading bits of the byte after them (R54). -/
theorem accesses_bits_trailing {ds : List Nat} {d nb : Nat} (hds : ∀ e ∈ ds, e ≤ 255)
    (hd : d ≤ 255) (h1 : 1 ≤ nb) (h7 : nb ≤ 7) (es : List Nat) :
    (Pseudo.feedbitsbuf (ds ++ d :: es) (8 * ds.length + nb)).accesses =
        some (callCmds [] .feed ds [.feedbits d nb]) ∧
      (Pseudo.tfeedbitsbuf (ds ++ d :: es) (8 * ds.length + nb)).accesses =
        some (callCmds [] .tfeed ds [.tfeedbits d nb]) ∧
      (Pseudo.calcbits (ds ++ d :: es) (8 * ds.length + nb) none).accesses =
        some (callCmds [.seed] .feed ds [.feedbits d nb, .fin]) ∧
      (Pseudo.tcalcbits (ds ++ d :: es) (8 * ds.length + nb) none).accesses =
        some (callCmds [.tseed] .tfeed ds [.tfeedbits d nb, .tfin]) ∧
      ∀ crc < 2 ^ 64,
        (Pseudo.calcbits (ds ++ d :: es) (8 * ds.length + nb) (some crc)).accesses =
          some (.write 0x20 (BitVec.ofNat 64 crc) ::
            callCmds [.resume] .feed ds [.feedbits d nb, .fin]) ∧
        (Pseudo.tcalcbits (ds ++ d :: es) (8 * ds.length + nb) (some crc)).accesses =
          some (.write 0x20 (BitVec.ofNat 64 crc) ::
            callCmds [.tresume] .tfeed ds [.tfeedbits d nb, .tfin]) := by
  have hfeed : ∀ e ∈ ds, (Instr.feed e).WellFormed := fun e he => decide_eq_true (hds e he)
  have htfeed : ∀ e ∈ ds, (Instr.tfeed e).WellFormed := fun e he => decide_eq_true (hds e he)
  have hbits : (Instr.feedbits d nb).WellFormed := by
    simp [Instr.WellFormed, Instr.wellFormed, hd, h7]
  have htbits : (Instr.tfeedbits d nb).WellFormed := hbits
  have hlive := bitsLines_trailing .feed .feedbits ds es d h1 h7
  have htable := bitsLines_trailing .tfeed .tfeedbits ds es d h1 h7
  refine ⟨?_, ?_, ?_, ?_, fun crc hcrc => ⟨?_, ?_⟩⟩
  · exact accesses_call (by decide) hfeed (by simpa using hbits) hlive
  · exact accesses_call (by decide) htfeed (by simpa using htbits) htable
  · exact accesses_call (by decide) hfeed (List.forall_mem_cons.mpr ⟨hbits, by decide⟩)
      (by simp [Pseudo.expand, seedLines, hlive])
  · exact accesses_call (by decide) htfeed (List.forall_mem_cons.mpr ⟨htbits, by decide⟩)
      (by simp [Pseudo.expand, seedLines, htable])
  · exact accesses_arg_call (by decide) hfeed (List.forall_mem_cons.mpr ⟨hbits, by decide⟩) hcrc
      (by simp [Pseudo.expand, seedLines, hlive])
  · exact accesses_arg_call (by decide) htfeed (List.forall_mem_cons.mpr ⟨htbits, by decide⟩) hcrc
      (by simp [Pseudo.expand, seedLines, htable])

/-- Settles O6: config and reflect are written out, the calls on bytes are one lemma, and the
bit-granular ones are those on whole bytes or add one command for the trailing bits. -/
theorem pseudoInstructionsExpand : Obligations.PseudoInstructionsExpand := by
  refine ⟨fun _ _ _ _ _ _ => accesses_config, rfl, fun _ _ => accesses_reflect,
    fun _ => accesses_bytes, fun ds es d nb hds hd h1 h7 => ?_⟩
  obtain ⟨hbuf, htbuf, hcalc, htcalc, hprior⟩ := accesses_bytes hds
  obtain ⟨ebuf, etbuf, ecalc, etcalc, eprior⟩ := accesses_bits_whole ds es
  obtain ⟨hbits, htbits, hcalcbits, htcalcbits, hpriorbits⟩ :=
    accesses_bits_trailing hds hd h1 h7 es
  refine ⟨hbits, ebuf.trans hbuf, htbits, etbuf.trans htbuf, hcalcbits, ecalc.trans hcalc,
    htcalcbits, etcalc.trans htcalc, fun crc hcrc => ?_⟩
  obtain ⟨hresume, htresume⟩ := hprior crc hcrc
  obtain ⟨eresume, etresume⟩ := eprior crc
  obtain ⟨hresumebits, htresumebits⟩ := hpriorbits crc hcrc
  exact ⟨hresumebits, eresume.trans hresume, htresumebits, etresume.trans htresume⟩

end Sys2Proof.Proofs
end

section
/-! Reflect (R55, R56 of 40_reflect.md) bit by bit, the laws that follow from its bits, and REFL
(R58). -/

namespace Sys2Proof.Proofs

open Sys2Proof.Machine

/-- Bit i of a reflection: one pass of the loop moves the earlier bits up by one and puts the next
bit of v at the bottom (R55). -/
theorem testBit_reflect (v n i : Nat) :
    (reflect v n).testBit i = (decide (i < n) && v.testBit (n - 1 - i)) := by
  induction n generalizing i with
  | zero => simp
  | succ n ih =>
    rw [reflect_succ, Nat.testBit_or, Nat.testBit_shiftLeft, Nat.testBit_bool_toNat]
    cases i with
    | zero => simp
    | succ i =>
      have hindex : n - (i + 1) = n - 1 - i := by omega
      simp [ih, hindex]

/-- Settles O37: the bits of a reflection, read off the loop. -/
theorem reflectReversesLowBits : Obligations.ReflectReversesLowBits := testBit_reflect

/-- Reflect reads the low n bits only (R56). -/
theorem reflect_mod_two_pow (v n : Nat) : reflect (v % 2 ^ n) n = reflect v n := by
  refine Nat.eq_of_testBit_eq fun i => ?_
  rw [testBit_reflect, testBit_reflect, Nat.testBit_mod_two_pow]
  by_cases hi : i < n
  · have hlow : n - 1 - i < n := by omega
    simp [hlow]
  · simp [hi]

/-- Reflecting an n-bit value twice gives it back: bit i comes from n-1-(n-1-i) = i (R56). -/
theorem reflect_reflect {v n : Nat} (hv : v < 2 ^ n) : reflect (reflect v n) n = v := by
  refine Nat.eq_of_testBit_eq fun i => ?_
  rw [testBit_reflect, testBit_reflect]
  by_cases hi : i < n
  · have hlow : n - 1 - i < n := by omega
    have hback : n - 1 - (n - 1 - i) = i := by omega
    simp [hi, hlow, hback]
  · have hhigh : v.testBit i = false :=
      Nat.testBit_eq_false_of_lt (hv.trans_le (Nat.pow_le_pow_right two_pos (Nat.not_lt.mp hi)))
    simp [hi, hhigh]

/-- Reflect distributes over exclusive OR (R56). -/
theorem reflect_xor (v w n : Nat) : reflect (v ^^^ w) n = reflect v n ^^^ reflect w n := by
  refine Nat.eq_of_testBit_eq fun i => ?_
  simp only [testBit_reflect, Nat.testBit_xor, Bool.and_xor_distrib_left]

/-- Reflect over one bit is that bit: the loop's only pass (R56). -/
theorem reflect_one (v : Nat) : reflect v 1 = v % 2 := by
  simpa [reflect_succ] using Nat.toNat_testBit v 0

/-- Settles O38: the bound, the low bits, the inverse, exclusive OR and one bit, a lemma each. -/
theorem reflectLaws : Obligations.ReflectLaws := fun v n =>
  ⟨⟨reflect_lt v n, reflect_zero v⟩, (reflect_mod_two_pow v n).symm, reflect_reflect,
    fun w => reflect_xor v w n, reflect_one v⟩

section
variable {v : Word} {i : Instr}

/-- A word with a command's OP is that command with the word's operands, or has a reserved bit set
(R48, R50). -/
theorem decode_of_opField (hop : opField v = i.opcode) :
    decode v = if v &&& i.format.mask = i.opcode.zeroExtend 64 then .ok (withOperandsOf v i)
      else .error .rsvd := by
  rw [decode, byOpcode_of_opField hop]
  simp [rowMatches]

/-- The words of every command: its opcode under its format's mask, the operands from the operand
fields (R48, R49, R51). -/
theorem wordsOf_opcode (i : Instr) :
    WordsOf i.opcode i.format.mask fun v => withOperandsOf v i := by
  intro v hop
  have hdecode := decode_of_opField hop
  refine ⟨hdecode, fun s => ?_⟩
  split_ifs at hdecode ⊢
  · exact execute_of_decode hdecode s
  · rw [execute_of_error hdecode, hop]

end

/-- N is v[22:16], by arithmetic (R47). -/
theorem nField_eq_div_mod (v : Word) : nField v = v.toNat / 2 ^ 16 % 2 ^ 7 := by
  rw [nField, BitVec.extractLsb'_toNat, Nat.shiftRight_eq_div_pow]

section
variable {n : Nat} {s : State}

/-- REFL reflects ARG into RESULT when N ≤ WMAX (R58). -/
theorem exec_refl_of_le (h : n ≤ s.wmax) :
    exec (.refl n) s = .next (writeResult (reflect s.arg.toNat n) s) := by
  rw [exec_refl, execRefl, if_neg h.not_gt]

/-- REFL is refused with code 5 when N > WMAX (R58). -/
theorem exec_refl_of_lt (h : s.wmax < n) :
    exec (.refl n) s = .next (cmdError .range 0x20 s) := by
  rw [exec_refl, execRefl, if_pos h, Instr.opcode]

end

/-- Settles O21: REFL's two outcomes, and its words as every command's, N read as a number. -/
theorem reflReflectsArgIntoResult : Obligations.ReflReflectsArgIntoResult := by
  refine ⟨fun s n => exec_refl_of_le, fun s n => exec_refl_of_lt, ?_⟩
  have hwords : WordsOf 0x20 0xFFFFFFFFFF80FFFF fun v => .refl (nField v) :=
    wordsOf_opcode (.refl 0)
  simpa only [nField_eq_div_mod] using hwords

end Sys2Proof.Proofs
end

section
/-! The bit-serial datapath (R59 to R62 of 41_bitwise.md) and its per-bit form. In each case of BitFold
the register is the per-bit register exclusive-ORed with the data bits that have still to enter it: in
case 1 exactly, in cases 2 and 3, whose registers are K = max(W, 8) bits wide, modulo 2^K. -/

namespace Sys2Proof.Proofs

open Sys2Proof.Machine

variable {P : ParamSet} {r x b c n k K s t : Nat}

/-! The per-bit form (R61). -/

/-- The next significant bit in processing order (R60). -/
theorem significantBits_succ (P : ParamSet) (b k : Nat) :
    significantBits P b (k + 1) =
      significantBits P b k ++ [b.testBit (if P.refin = true then k else 7 - k)] := by
  rw [significantBits, List.range_succ, List.map_append, apply_ite b.testBit]
  rfl

/-- With no data bit the per-bit form masks the remainder. -/
theorem perBitFold_zero (P : ParamSet) (r b : Nat) : perBitFold P r b 0 = r % 2 ^ P.width :=
  and_mask ..

/-- One more data bit is one more step of the per-bit form. -/
theorem perBitFold_succ (P : ParamSet) (r b k : Nat) :
    perBitFold P r b (k + 1) =
      perBitStep P (perBitFold P r b k) (b.testBit (if P.refin = true then k else 7 - k)) := by
  rw [perBitFold, significantBits_succ, List.foldl_append]
  rfl

/-- The effective polynomial is below 2^W (R16). -/
theorem polyE_lt (P : ParamSet) : P.polyE < 2 ^ P.width := by
  rw [polyE_eq_mod]
  exact Nat.mod_lt _ (Nat.two_pow_pos _)

/-- The reflectInput = 1 step (R61). -/
theorem perBitStep_of_refin (hin : P.refin = true) (x : Nat) (d : Bool) :
    perBitStep P x d =
      (x >>> 1) ^^^ (if (x.testBit 0 ^^ d) = true then reflect P.polyE P.width else 0) := by
  rw [perBitStep, if_pos hin]

/-- The reflectInput = 0 step (R61). -/
theorem perBitStep_of_not_refin (hin : P.refin = false) (x : Nat) (d : Bool) :
    perBitStep P x d = ((x <<< 1) % 2 ^ P.width) ^^^
      (if (x.testBit (P.width - 1) ^^ d) = true then P.polyE else 0) := by
  rw [perBitStep, hin, if_neg Bool.false_ne_true, ParamSet.m, and_mask]

/-- A per-bit step keeps a W-bit register W bits wide. -/
theorem perBitStep_lt (hx : x < 2 ^ P.width) (d : Bool) : perBitStep P x d < 2 ^ P.width := by
  have hsel : ∀ (q : Prop) [Decidable q] {p : Nat}, p < 2 ^ P.width →
      (if q then p else 0) < 2 ^ P.width := by
    intro q _ p hp
    split
    · exact hp
    · exact Nat.two_pow_pos _
  cases hin : P.refin with
  | true =>
    rw [perBitStep_of_refin hin]
    exact Nat.xor_lt_two_pow ((Nat.shiftRight_le x 1).trans_lt hx) (hsel _ (reflect_lt _ _))
  | false =>
    rw [perBitStep_of_not_refin hin]
    exact Nat.xor_lt_two_pow (Nat.mod_lt _ (Nat.two_pow_pos _)) (hsel _ (polyE_lt P))

/-- The per-bit form's register is W bits wide. -/
theorem perBitFold_lt (P : ParamSet) (r b n : Nat) : perBitFold P r b n < 2 ^ P.width := by
  induction n with
  | zero => rw [perBitFold_zero]; exact Nat.mod_lt _ (Nat.two_pow_pos _)
  | succ n ih => rw [perBitFold_succ]; exact perBitStep_lt ih _

/-- The per-bit form reads the remainder modulo 2^W. -/
theorem perBitFold_mod (P : ParamSet) (r b n : Nat) :
    perBitFold P (r % 2 ^ P.width) b n = perBitFold P r b n := by
  simp only [perBitFold, ParamSet.m, and_mask, Nat.mod_mod]

/-! Case 1: the register shifts right. -/

/-- A step of case 1 is a per-bit step with the next of the bits c still to enter. -/
theorem stepRight_xor (hin : P.refin = true) (x c : Nat) :
    stepRight (reflect P.polyE P.width) (x ^^^ c) =
      perBitStep P x (c.testBit 0) ^^^ (c >>> 1) := by
  rw [perBitStep_of_refin hin, stepRight, Nat.testBit_xor, Nat.shiftRight_xor_distrib]
  split
  · exact Nat.xor_right_comm ..
  · rw [Nat.xor_zero]

/-- The register of case 1 after k steps: the significant bits but the first k are still to enter. -/
theorem iterate_stepRight (hin : P.refin = true) (r b : Nat) (hk : k ≤ n) :
    (stepRight (reflect P.polyE P.width))^[k] (r % 2 ^ P.width ^^^ b % 2 ^ n) =
      perBitFold P r b k ^^^ (b % 2 ^ n) >>> k := by
  induction k with
  | zero => rw [perBitFold_zero]; rfl
  | succ k ih =>
    have hbit : ((b % 2 ^ n) >>> k).testBit 0 = b.testBit k := by
      rw [Nat.testBit_shiftRight, Nat.testBit_mod_two_pow, Nat.add_zero]
      simp [Nat.lt_of_succ_le hk]
    rw [Function.iterate_succ_apply', ih (Nat.le_of_succ_le hk), stepRight_xor hin, hbit,
      perBitFold_succ, if_pos hin, ← Nat.shiftRight_add]

/-- In case 1 every data bit has left the register after n shifts, so no mask is needed (R59, R62). -/
theorem unmaskedFold_of_refin (hin : P.refin = true) (hr : r < 2 ^ P.width) (b n : Nat) :
    unmaskedFold P r b n = perBitFold P r b n := by
  have hgone : (b % 2 ^ n) >>> n = 0 := by
    rw [Nat.shiftRight_eq_div_pow, Nat.div_eq_of_lt (Nat.mod_lt _ (Nat.two_pow_pos n))]
  have hrun := iterate_stepRight hin r b (le_refl n)
  rw [Nat.mod_eq_of_lt hr, hgone, Nat.xor_zero] at hrun
  rw [unmaskedFold, if_pos hin, and_mask, hrun]

/-! Cases 2 and 3: the register shifts left, and the remainder stands in its top W bits, s = K - W
places up. -/

/-- The bit that case 2 or 3 tests depends on the low K bits only. -/
theorem testBit_congr_mod {y i : Nat} (h : x % 2 ^ K = y % 2 ^ K) (hi : i < K) :
    x.testBit i = y.testBit i := by
  have hbit := congrArg (Nat.testBit · i) h
  simpa [Nat.testBit_mod_two_pow, hi] using hbit

/-- Bits moved up by s and bits kept below 2^(W+s) are the low W bits moved up. -/
theorem shiftLeft_mod_two_pow (x s W : Nat) : x <<< s % 2 ^ (W + s) = (x % 2 ^ W) <<< s := by
  rw [Nat.shiftLeft_eq, Nat.shiftLeft_eq, pow_add, Nat.mul_mod_mul_right]

/-- The low W bits after a move down by s are bits s to W+s-1. -/
theorem shiftRight_mod_two_pow (x s W : Nat) : x >>> s % 2 ^ W = (x % 2 ^ (W + s)) >>> s := by
  rw [Nat.shiftRight_eq_div_pow, Nat.shiftRight_eq_div_pow, pow_add, mul_comm,
    Nat.mod_mul_right_div_self]

/-- A step of case 2 or 3 is a per-bit step with the top one of the bits c still to enter; bits at and
above K never move down (R62). -/
theorem stepLeft_mod (hin : P.refin = false) (hw : 1 ≤ P.width) (hs : P.width + s = K) {y : Nat}
    (hx : x % 2 ^ K = (y <<< s ^^^ c) % 2 ^ K) :
    stepLeft (K - 1) (P.polyE <<< s) x % 2 ^ K =
      (perBitStep P y (c.testBit (K - 1)) <<< s ^^^ c <<< 1) % 2 ^ K := by
  have htop : x.testBit (K - 1) = (y.testBit (P.width - 1) ^^ c.testBit (K - 1)) := by
    have hplace : K - 1 - s = P.width - 1 := by omega
    have hge : s ≤ K - 1 := by omega
    rw [testBit_congr_mod hx (by omega), Nat.testBit_xor, Nat.testBit_shiftLeft, hplace]
    simp [hge]
  have hshift : x <<< 1 % 2 ^ K = ((y <<< 1 % 2 ^ P.width) <<< s ^^^ c <<< 1) % 2 ^ K := by
    have hdouble : ∀ z, z <<< 1 % 2 ^ K = 2 * (z % 2 ^ K) % 2 ^ K := fun z => by
      rw [Nat.shiftLeft_eq, pow_one, mul_comm, Nat.mul_mod_mod]
    rw [hdouble, hx, ← hdouble, Nat.shiftLeft_xor_distrib, Nat.xor_mod_two_pow,
      Nat.xor_mod_two_pow, ← shiftLeft_mod_two_pow, hs, Nat.mod_mod, ← Nat.shiftLeft_add,
      ← Nat.shiftLeft_add, Nat.add_comm s 1]
  rw [perBitStep_of_not_refin hin, stepLeft, htop, Nat.shiftLeft_xor_distrib]
  split
  · rw [Nat.xor_right_comm, Nat.xor_mod_two_pow, hshift, ← Nat.xor_mod_two_pow]
  · rw [hshift, Nat.zero_shiftLeft, Nat.xor_zero]

/-- The register of cases 2 and 3 after k steps, the byte placed in its top 8 bits, t = K - 8 places
up: the bits c but the first k are still to enter. -/
theorem iterate_stepLeft (hin : P.refin = false) (hw : 1 ≤ P.width) (hs : P.width + s = K)
    (ht : 8 + t = K) (r b c : Nat) (hn : n ≤ 8) (hc : ∀ j < n, c.testBit (7 - j) = b.testBit (7 - j))
    (hk : k ≤ n) :
    (stepLeft (K - 1) (P.polyE <<< s))^[k] (r <<< s ^^^ c <<< t) % 2 ^ K =
      (perBitFold P r b k <<< s ^^^ c <<< (t + k)) % 2 ^ K := by
  induction k with
  | zero =>
    have hmasked : (r <<< s ^^^ c <<< t) % 2 ^ K =
        ((r % 2 ^ P.width) <<< s ^^^ c <<< t) % 2 ^ K := by
      rw [← shiftLeft_mod_two_pow, hs, Nat.xor_mod_two_pow, Nat.xor_mod_two_pow, Nat.mod_mod]
    rw [perBitFold_zero]
    exact hmasked
  | succ k ih =>
    have hbit : (c <<< (t + k)).testBit (K - 1) = b.testBit (7 - k) := by
      have hge : t + k ≤ K - 1 := by omega
      have hplace : K - 1 - (t + k) = 7 - k := by omega
      rw [Nat.testBit_shiftLeft, hplace, hc k (Nat.lt_of_succ_le hk)]
      simp [hge]
    rw [Function.iterate_succ_apply', stepLeft_mod hin hw hs (ih (Nat.le_of_succ_le hk)), hbit,
      perBitFold_succ, hin, if_neg Bool.false_ne_true, ← Nat.shiftLeft_add]
    rfl

/-- The bits of the byte mask. -/
theorem testBit_byteMask (i : Nat) : (0xFF).testBit i = decide (i < 8) := testBit_mask 8 i

/-- The significant bits of the byte with reflectInput = 0 (R60). -/
def leadingBits (b n : Nat) : Nat := b &&& ((mask n <<< (8 - n)) &&& 0xFF)

/-- The significant bits are b[7:8-n]. -/
theorem testBit_leadingBits (hn : n ≤ 8) (b i : Nat) :
    (leadingBits b n).testBit i = (b.testBit i && (decide (8 - n ≤ i) && decide (i < 8))) := by
  rw [leadingBits, Nat.testBit_and, Nat.testBit_and, Nat.testBit_shiftLeft, testBit_mask,
    testBit_byteMask]
  grind

/-- The remainder in a register of case 2 or 3 after n steps: the byte's bits have all passed its
top. -/
theorem iterate_stepLeft_leadingBits (hin : P.refin = false) (hw : 1 ≤ P.width)
    (hs : P.width + s = K) (ht : 8 + t = K) (r b : Nat) (hn : n ≤ 8) :
    (stepLeft (K - 1) (P.polyE <<< s))^[n] (r <<< s ^^^ leadingBits b n <<< t) >>> s
      % 2 ^ P.width = perBitFold P r b n := by
  have hbits : ∀ j < n, (leadingBits b n).testBit (7 - j) = b.testBit (7 - j) := by
    intro j hj
    rw [testBit_leadingBits hn]
    grind
  have hgone : leadingBits b n <<< (t + n) % 2 ^ K = 0 := by
    refine Nat.eq_of_testBit_eq fun i => ?_
    rw [Nat.testBit_mod_two_pow, Nat.testBit_shiftLeft, testBit_leadingBits hn, Nat.zero_testBit]
    grind
  rw [shiftRight_mod_two_pow, hs, iterate_stepLeft hin hw hs ht r b _ hn hbits le_rfl,
    Nat.xor_mod_two_pow, hgone, Nat.xor_zero, ← hs, shiftLeft_mod_two_pow,
    Nat.mod_eq_of_lt (perBitFold_lt P r b n), Nat.shiftLeft_shiftRight]

/-- Cases 2 and 3 are one division: case 3 only moves the register to the top of a byte (R61, R62). -/
theorem unmaskedFold_mod_of_not_refin (hin : P.refin = false) (hw : 1 ≤ P.width) (r b : Nat)
    (hn : n ≤ 8) : unmaskedFold P r b n % 2 ^ P.width = perBitFold P r b n := by
  simp only [unmaskedFold, hin, if_neg Bool.false_ne_true]
  by_cases h8 : 8 ≤ P.width
  · rw [if_pos h8]
    exact iterate_stepLeft_leadingBits (s := 0) hin hw rfl (Nat.add_sub_of_le h8) r b hn
  · rw [if_neg h8]
    exact iterate_stepLeft_leadingBits (t := 0) hin hw
      (Nat.add_sub_of_le (Nat.le_of_not_le h8)) rfl r b hn

/-! BitFold. -/

/-- BitFold is the source's algorithm between its two masks (R59, R62). -/
theorem bitFold_eq_unmaskedFold (P : ParamSet) (r b n : Nat) :
    bitFold P r b n = unmaskedFold P (r % 2 ^ P.width) b n % 2 ^ P.width := by
  simp only [bitFold, unmaskedFold, ParamSet.m, and_mask]
  split_ifs <;> rfl

/-- BitFold is the per-bit form, whichever of its three cases applies (R61). -/
theorem bitFold_eq_perBitFold (hw : 1 ≤ P.width) (r b : Nat) (hn : n ≤ 8) :
    bitFold P r b n = perBitFold P r b n := by
  rw [bitFold_eq_unmaskedFold, ← perBitFold_mod]
  cases hin : P.refin with
  | true =>
    rw [unmaskedFold_of_refin hin (Nat.mod_lt _ (Nat.two_pow_pos _)),
      Nat.mod_eq_of_lt (perBitFold_lt ..)]
  | false => exact unmaskedFold_mod_of_not_refin hin hw _ b hn

/-- Settles O39: the register of each case, after its last step, is the per-bit register. -/
theorem bitFoldIsPerBitDivision : Obligations.BitFoldIsPerBitDivision := fun _ r b n _ hn =>
  ⟨fun hw => bitFold_eq_perBitFold hw r b hn, fun hw => bitFold_of_width_zero hw r b n⟩

/-- Settles O42: unmasked and masked, the algorithm is the per-bit form. -/
theorem maskingChangesNoResult : Obligations.MaskingChangesNoResult := by
  intro P r r' b n _ hn
  rcases Nat.eq_zero_or_pos P.width with hw | hw
  · rw [bitFold_of_width_zero hw, hw]
    refine ⟨fun _ _ => Nat.mod_one _, fun hin hr => ?_⟩
    rw [unmaskedFold_of_refin hin (hw ▸ hr)]
    exact eq_zero_of_lt_of_width_zero (perBitFold_lt P r b n) hw
  · rw [bitFold_eq_perBitFold hw r b hn]
    refine ⟨fun hin hr => ?_, fun hin hr => unmaskedFold_of_refin hin hr b n⟩
    rw [unmaskedFold_mod_of_not_refin hin hw r' b hn, ← perBitFold_mod, hr, perBitFold_mod]

/-- The per-bit form in two parts: b2 holds, first in processing order, the bits of b after its first
n1 (R61). -/
theorem perBitFold_add {b2 n1 : Nat} (r n2 : Nat)
    (h : ∀ j < n2, b2.testBit (if P.refin = true then j else 7 - j) =
      b.testBit (if P.refin = true then n1 + j else 7 - (n1 + j))) :
    perBitFold P (perBitFold P r b n1) b2 n2 = perBitFold P r b (n1 + n2) := by
  induction n2 with
  | zero => rw [perBitFold_zero, Nat.mod_eq_of_lt (perBitFold_lt P r b n1), Nat.add_zero]
  | succ n2 ih =>
    rw [perBitFold_succ, ih fun j hj => h j (Nat.lt_succ_of_lt hj), h n2 n2.lt_succ_self,
      ← Nat.add_assoc, perBitFold_succ]

/-- Settles O41: the per-bit form may be cut anywhere, and b2 holds the bits after the cut. -/
theorem byteFoldsInTwoParts : Obligations.ByteFoldsInTwoParts := by
  intro P r b n1 _ hn1
  rcases Nat.eq_zero_or_pos P.width with hw | hw
  · rw [bitFold_of_width_zero hw, bitFold_of_width_zero hw]
  · rw [bitFold_eq_perBitFold hw r b hn1, bitFold_eq_perBitFold hw _ _ (Nat.sub_le 8 n1),
      bitFold_eq_perBitFold hw r b le_rfl]
    refine (perBitFold_add r (8 - n1) fun j hj => ?_).trans (by rw [Nat.add_sub_of_le hn1])
    cases P.refin with
    | true => exact Nat.testBit_shiftRight b
    | false =>
      have hge : n1 ≤ 7 - j := by omega
      have hplace : 7 - j - n1 = 7 - (n1 + j) := by omega
      have hlow : 7 - j < 8 := by omega
      simp [testBit_byteMask, hge, hplace, hlow]

end Sys2Proof.Proofs
end

section
/-! Two readings of the per-bit form: the reflected datapath as the same division on the bit-reversed
register (R61), and the parity that a CRC of width 1 computes (R63). -/

namespace Sys2Proof.Proofs

open Sys2Proof.Machine

variable {P : ParamSet} {x n : Nat}

/-! The bit-reversed register. -/

/-- A reflected register shifts the other way: bit 0 falls off its top. -/
theorem reflect_shiftRight_one (hx : x < 2 ^ n) :
    reflect (x >>> 1) n = reflect x n <<< 1 % 2 ^ n := by
  refine Nat.eq_of_testBit_eq fun i => ?_
  rw [testBit_reflect, Nat.testBit_shiftRight, Nat.testBit_mod_two_pow, Nat.testBit_shiftLeft,
    testBit_reflect]
  cases i with
  | zero =>
    have htop : x.testBit (1 + (n - 1)) = false :=
      Nat.testBit_eq_false_of_lt (hx.trans_le (Nat.pow_le_pow_right two_pos (by omega)))
    simp [htop]
  | succ i =>
    by_cases hi : i + 1 < n
    · have hplace : 1 + (n - 1 - (i + 1)) = n - 1 - i := by omega
      have hlow : i < n := by omega
      simp [hi, hplace, hlow]
    · simp [hi]

/-- The reflection of 0 is 0: it is its own exclusive OR with itself. -/
theorem reflect_eq_zero (n : Nat) : reflect 0 n = 0 := by
  simpa using reflect_xor 0 0 n

/-- Settles O40: the tested bit, the shift and the polynomial are each other's reflections. -/
theorem reflectedDatapathMirrors : Obligations.ReflectedDatapathMirrors := by
  intro P x d hin hw hx
  have hbit : (reflect x P.width).testBit (P.width - 1) = x.testBit 0 := by
    have hlow : P.width - 1 < P.width := by omega
    simp [testBit_reflect, hlow]
  rw [perBitStep_of_refin hin, perBitStep_of_not_refin rfl, reflect_xor,
    reflect_shiftRight_one hx, hbit]
  split
  · rw [reflect_reflect (polyE_lt P)]; rfl
  · rw [reflect_eq_zero]

/-! Width 1 with polynomial 1. -/

/-- With W = 1 and poly_e = 1 a step adds the data bit to the one-bit register, in both modes. -/
theorem perBitStep_of_width_one (hw : P.width = 1) (hpoly : P.poly % 2 = 1) (hx : x < 2) (d : Bool) :
    perBitStep P x d = (x + d.toNat) % 2 := by
  have hone : P.polyE = 1 := by rw [polyE_eq_mod, hw, pow_one, hpoly]
  cases hin : P.refin with
  | true =>
    rw [perBitStep_of_refin hin, hone, hw, reflect_one]
    interval_cases x <;> cases d <;> rfl
  | false =>
    rw [perBitStep_of_not_refin hin, hone, hw]
    interval_cases x <;> cases d <;> rfl

/-- With W = 1 and poly_e = 1 any data bits add their number of ones, modulo 2. -/
theorem foldl_perBitStep_of_width_one (hw : P.width = 1) (hpoly : P.poly % 2 = 1)
    (ds : List Bool) (hx : x < 2) :
    ds.foldl (perBitStep P) x = (x + ds.count true) % 2 := by
  induction ds generalizing x with
  | nil => exact (Nat.mod_eq_of_lt hx).symm
  | cons d ds ih =>
    have hcount : (d :: ds).count true = d.toNat + ds.count true := by
      cases d <;> simp [Nat.add_comm]
    rw [List.foldl_cons, perBitStep_of_width_one hw hpoly hx, ih (Nat.mod_lt _ two_pos),
      Nat.mod_add_mod, hcount, Nat.add_assoc]

/-- The significant bits of a whole byte are its eight bits, in one order or the other (R60). -/
theorem significantBits_perm (P : ParamSet) (b : Nat) :
    (significantBits P b 8).Perm ((List.range 8).map b.testBit) := by
  rw [significantBits]
  cases P.refin with
  | true => exact .refl _
  | false => exact List.reverse_perm ((List.range 8).map b.testBit)

/-- Settles O46: the fold is the per-bit form, which counts the ones of the byte modulo 2. -/
theorem widthOneComputesParity : Obligations.WidthOneComputesParity := by
  intro P r b hw hpoly _
  have hcount : (significantBits P b 8).count true = ((List.range 8).filter b.testBit).length := by
    rw [(significantBits_perm P b).count_eq, List.count, List.countP_map,
      List.countP_eq_length_filter]
    simp only [Function.comp_def, beq_true]
  rw [bitFold_eq_perBitFold hw.ge r b le_rfl, perBitFold, ParamSet.m, and_mask, hw, pow_one,
    foldl_perBitStep_of_width_one hw hpoly _ (Nat.mod_lt _ two_pos), hcount, Nat.mod_add_mod]

end Sys2Proof.Proofs
end

section
/-! FEED (R63 of 41_bitwise.md). -/

namespace Sys2Proof.Proofs

open Sys2Proof.Machine

/-- DATA is v[15:8], by arithmetic (R47). -/
theorem dataField_eq_div_mod (v : Word) : dataField v = v.toNat / 2 ^ 8 % 2 ^ 8 := by
  rw [dataField, BitVec.extractLsb'_toNat, Nat.shiftRight_eq_div_pow]

/-- Settles O26: FEED makes the live set's check, and its words are as every command's, DATA read as a
number. -/
theorem feedFoldsOneByte : Obligations.FeedFoldsOneByte := by
  have hwords : WordsOf 0x03 0xFFFFFFFFFFFF00FF fun v => .feed (dataField v) :=
    wordsOf_opcode (.feed 0)
  refine ⟨fun s d hw => ?_, fun s d hw => ?_, by simpa only [dataField_eq_div_mod] using hwords⟩
  · rw [exec_feed, onCfg_of_le _ _ hw]
    rfl
  · rw [exec_feed, onCfg_of_lt _ _ hw]
    rfl

end Sys2Proof.Proofs
end

section
/-! The table (R64, R67 and R68 of 42_table.md). The per-bit form is linear in the remainder and the
data bits together. One lookup therefore folds a byte: where the data bits equal the bits that leave
the remainder, no step adds the polynomial and the remainder only shifts, and what the byte differs by
from them is folded from 0, which is the table's entry. -/

namespace Sys2Proof.Proofs

open Sys2Proof.Machine

variable {P : ParamSet} {b c n r x : Nat}

/-! The entries. -/

/-- A fold that is not aligned is the entry itself (R64). -/
theorem tableEntry_of_refin_or_wide (h : P.refin = true ∨ 8 ≤ P.width) (b : Nat) :
    tableEntry P b = bitFold P 0 b 8 := by
  have hnot : ¬ (P.refin = false ∧ P.width < 8) := by
    rintro ⟨hin, hw⟩
    obtain h | h := h
    · simp [hin] at h
    · exact hw.not_ge h
  rw [tableEntry_eq_bitFold_mul, if_neg hnot, Nat.mul_one]

/-- With reflectInput = 0 and W < 8 the entry is the fold at the top of a byte (R64). -/
theorem tableEntry_of_narrow (hin : P.refin = false) (hw : P.width < 8) (b : Nat) :
    tableEntry P b = bitFold P 0 b 8 * 2 ^ (8 - P.width) := by
  rw [tableEntry_eq_bitFold_mul, if_pos ⟨hin, hw⟩]

/-- An entry is W bits wide, or 8 where it is aligned to the top of a byte. -/
theorem tableEntry_lt (P : ParamSet) (b : Nat) : tableEntry P b < 2 ^ max P.width 8 := by
  have hfold : bitFold P 0 b 8 < 2 ^ P.width := bitFold_lt P 0 b 8
  by_cases h : P.refin = true ∨ 8 ≤ P.width
  · rw [tableEntry_of_refin_or_wide h]
    exact hfold.trans_le (Nat.pow_le_pow_right two_pos (le_max_left ..))
  · obtain ⟨hin, hw⟩ := not_or.mp h
    have hlt : P.width < 8 := Nat.lt_of_not_le hw
    have hbyte : 2 ^ max P.width 8 = 2 ^ P.width * 2 ^ (8 - P.width) := by
      rw [max_eq_right hlt.le, ← pow_add, Nat.add_sub_of_le hlt.le]
    rw [tableEntry_of_narrow (Bool.eq_false_of_not_eq_true hin) hlt, hbyte]
    exact Nat.mul_lt_mul_of_pos_right hfold (Nat.two_pow_pos _)

/-- Settles O47: the entry is a fold, W bits wide, or such a fold times 2^(8-W). -/
theorem tableEntriesAreByteFolds : Obligations.TableEntriesAreByteFolds := by
  refine fun P b => ⟨tableEntry_eq_bitFold_mul P b, tableEntry_lt P b, fun h => ?_,
    fun hin hw => ?_⟩
  · rw [tableEntry_of_refin_or_wide h]
    exact bitFold_lt P 0 b 8
  · rw [tableEntry_of_narrow hin hw]
    exact Nat.mul_mod_left ..

/-- Entry b of the table that BUILD writes: with W ≤ 64 the 64 bits of the RAM hold it whole (R28,
R65). -/
theorem entry_buildTable (hw : P.width ≤ 64) (hb : b < 256) :
    (buildTable P).entry b = tableEntry P b := by
  have hfits : tableEntry P b < 2 ^ 64 :=
    (tableEntry_lt P b).trans_le (Nat.pow_le_pow_right two_pos (max_le hw (by decide)))
  rw [buildTable, entry_tabulate _ hb, Nat.mod_eq_of_lt hfits]

/-! The per-bit form is linear. -/

/-- A per-bit step distributes over exclusive OR of registers and of data bits. -/
theorem perBitStep_xor (P : ParamSet) (x y : Nat) (d e : Bool) :
    perBitStep P (x ^^^ y) (d ^^ e) = perBitStep P x d ^^^ perBitStep P y e := by
  have hsel : ∀ (p : Nat) (a b : Bool), (if (a ^^ b) = true then p else 0) =
      (if a = true then p else 0) ^^^ (if b = true then p else 0) := by
    intro p a b
    cases a <;> cases b <;> simp
  have hbit : ∀ k, ((x ^^^ y).testBit k ^^ (d ^^ e)) =
      ((x.testBit k ^^ d) ^^ (y.testBit k ^^ e)) := by
    intro k
    simp [Bool.xor_left_comm]
  cases hin : P.refin with
  | true =>
    simp only [perBitStep_of_refin hin, hbit, hsel, Nat.shiftRight_xor_distrib]
    ac_rfl
  | false =>
    simp only [perBitStep_of_not_refin hin, hbit, hsel, Nat.shiftLeft_xor_distrib,
      Nat.xor_mod_two_pow]
    ac_rfl

/-- The per-bit form distributes over exclusive OR of remainders and of bytes. -/
theorem perBitFold_xor (P : ParamSet) (r q b c n : Nat) :
    perBitFold P (r ^^^ q) (b ^^^ c) n = perBitFold P r b n ^^^ perBitFold P q c n := by
  induction n with
  | zero => simp only [perBitFold_zero, Nat.xor_mod_two_pow]
  | succ n ih => simp only [perBitFold_succ, ih, Nat.testBit_xor, perBitStep_xor]

/-- A byte folds into a remainder as any byte i folds into 0, exclusive-ORed with what the rest of the
byte does to the remainder. -/
theorem perBitFold_split (P : ParamSet) (r b i n : Nat) :
    perBitFold P r b n = perBitFold P 0 i n ^^^ perBitFold P r (i ^^^ b) n := by
  rw [← perBitFold_xor, Nat.zero_xor, Nat.xor_xor_cancel_left]

/-! Data bits that equal the bits which leave the remainder. -/

/-- With reflectInput = 1 they leave the remainder shifted right. -/
theorem perBitFold_of_cancel_low (hin : P.refin = true)
    (h : ∀ j < n, c.testBit j = (r % 2 ^ P.width).testBit j) :
    perBitFold P r c n = (r % 2 ^ P.width) >>> n := by
  induction n with
  | zero => exact perBitFold_zero ..
  | succ n ih =>
    rw [perBitFold_succ, ih fun j hj => h j (Nat.lt_succ_of_lt hj), if_pos hin,
      h n n.lt_succ_self, perBitStep_of_refin hin, Nat.testBit_shiftRight, Nat.add_zero]
    simp [← Nat.shiftRight_add]

/-- With reflectInput = 0 they leave the remainder shifted left. -/
theorem perBitFold_of_cancel_high (hin : P.refin = false)
    (h : ∀ j < n, c.testBit (7 - j) = (r <<< j % 2 ^ P.width).testBit (P.width - 1)) :
    perBitFold P r c n = r <<< n % 2 ^ P.width := by
  induction n with
  | zero => exact perBitFold_zero ..
  | succ n ih =>
    have hshift : (r <<< n % 2 ^ P.width) <<< 1 % 2 ^ P.width = r <<< (n + 1) % 2 ^ P.width := by
      rw [Nat.shiftLeft_add, Nat.shiftLeft_eq _ 1, Nat.shiftLeft_eq _ 1, Nat.mod_mul_mod]
    rw [perBitFold_succ, ih fun j hj => h j (Nat.lt_succ_of_lt hj), hin,
      if_neg Bool.false_ne_true, h n n.lt_succ_self, perBitStep_of_not_refin hin, hshift]
    simp

/-- The index of a lookup, exclusive-ORed with the byte, has in its eight bits those of what the byte
was combined with. -/
theorem testBit_index_xor {j : Nat} (hj : j < 8) (x b : Nat) :
    (((x ^^^ b) &&& 0xFF) ^^^ b).testBit j = x.testBit j := by
  simp [testBit_byteMask, hj]

/-! One lookup. -/

/-- With reflectInput = 1 the byte is combined with the remainder's low eight bits (R67). -/
theorem bitFold_eq_shiftRight_xor (hin : P.refin = true) (hw : 1 ≤ P.width) (r b : Nat) :
    bitFold P r b 8 =
      (r % 2 ^ P.width) >>> 8 ^^^ bitFold P 0 ((r % 2 ^ P.width ^^^ b) &&& 0xFF) 8 := by
  rw [bitFold_eq_perBitFold hw r b le_rfl, bitFold_eq_perBitFold hw _ _ le_rfl,
    perBitFold_split P r b ((r % 2 ^ P.width ^^^ b) &&& 0xFF),
    perBitFold_of_cancel_low hin fun j hj => testBit_index_xor hj _ b, Nat.xor_comm]

/-- With reflectInput = 0 the byte is combined with any x whose bits 7, 6, .. 0 are those that leave
the remainder's top. -/
theorem bitFold_eq_shiftLeft_xor (hin : P.refin = false) (hw : 1 ≤ P.width) (b : Nat)
    (hx : ∀ j < 8, x.testBit (7 - j) = (r <<< j % 2 ^ P.width).testBit (P.width - 1)) :
    bitFold P r b 8 = r <<< 8 % 2 ^ P.width ^^^ bitFold P 0 ((x ^^^ b) &&& 0xFF) 8 := by
  have hcancel : ∀ j < 8, (((x ^^^ b) &&& 0xFF) ^^^ b).testBit (7 - j) =
      (r <<< j % 2 ^ P.width).testBit (P.width - 1) := fun j hj => by
    rw [testBit_index_xor (by omega), hx j hj]
  rw [bitFold_eq_perBitFold hw r b le_rfl, bitFold_eq_perBitFold hw _ _ le_rfl,
    perBitFold_split P r b ((x ^^^ b) &&& 0xFF), perBitFold_of_cancel_high hin hcancel,
    Nat.xor_comm]

/-- The bits that leave the top of a W-bit remainder, W ≥ 1. -/
theorem testBit_shiftLeft_top (hw : 1 ≤ n) (r j : Nat) :
    (r <<< j % 2 ^ n).testBit (n - 1) = (decide (j ≤ n - 1) && r.testBit (n - 1 - j)) := by
  have htop : n - 1 < n := by omega
  simp [Nat.testBit_mod_two_pow, Nat.testBit_shiftLeft, htop]

/-- The index of any lookup is a byte. -/
theorem and_byteMask_lt (x : Nat) : x &&& 0xFF < 256 :=
  Nat.and_lt_two_pow x (n := 8) (by decide)

/-- With W ≥ 8 those bits are bits W-1 to W-8 of the remainder, moved to the bottom (R67). -/
theorem testBit_shiftRight_top (hw : 8 ≤ n) (r : Nat) {j : Nat} (hj : j < 8) :
    ((r % 2 ^ n) >>> (n - 8)).testBit (7 - j) = (r <<< j % 2 ^ n).testBit (n - 1) := by
  have hplace : n - 8 + (7 - j) = n - 1 - j := by omega
  have hlow : n - 1 - j < n := by omega
  have hle : j ≤ n - 1 := by omega
  rw [testBit_shiftLeft_top (by omega), Nat.testBit_shiftRight, hplace, Nat.testBit_mod_two_pow]
  simp only [hlow, hle]

/-- With 1 ≤ W < 8 they are the remainder at the top of a byte and zeros below it (R67). -/
theorem testBit_shiftLeft_subByte (hw : 1 ≤ n) (h8 : n < 8) (r : Nat) {j : Nat} (hj : j < 8) :
    ((r % 2 ^ n) <<< (8 - n)).testBit (7 - j) = (r <<< j % 2 ^ n).testBit (n - 1) := by
  have hplace : 7 - j - (8 - n) = n - 1 - j := by omega
  have hlow : n - 1 - j < n := by omega
  have hge : 7 - j ≥ 8 - n ↔ j ≤ n - 1 := by omega
  rw [testBit_shiftLeft_top hw, Nat.testBit_shiftLeft, hplace, Nat.testBit_mod_two_pow]
  simp only [hlow, hge, decide_true, Bool.true_and]

/-- Eight shifts to the left leave no bit of a remainder of fewer than eight bits. -/
theorem shiftLeft_eight_mod_two_pow (h8 : n < 8) (r : Nat) : r <<< 8 % 2 ^ n = 0 := by
  rw [Nat.shiftLeft_eq]
  exact Nat.mod_eq_zero_of_dvd (Dvd.dvd.mul_left (pow_dvd_pow 2 h8.le) r)

/-- A lookup folds a byte as eight bit-serial steps do, with a table that BUILD wrote (R68). -/
theorem tableFold_buildTable (hw : P.width ≤ 64) (r b : Nat) :
    tableFold P (buildTable P) r b = bitFold P r b 8 := by
  rcases Nat.eq_zero_or_pos P.width with h0 | hpos
  · rw [bitFold_of_width_zero h0]
    exact eq_zero_of_lt_of_width_zero (tableFold_lt ..) h0
  have hentry : ∀ x, (buildTable P).entry ((x ^^^ b) &&& 0xFF) =
      tableEntry P ((x ^^^ b) &&& 0xFF) := fun x => entry_buildTable hw (and_byteMask_lt _)
  rw [← Nat.mod_eq_of_lt (bitFold_lt P r b 8)]
  simp only [tableFold, hentry, and_mask]
  cases hin : P.refin with
  | true =>
    rw [if_pos rfl, tableEntry_of_refin_or_wide (.inl hin), bitFold_eq_shiftRight_xor hin hpos r b]
  | false =>
    rw [if_neg Bool.false_ne_true]
    split
    case isTrue h8 =>
      rw [tableEntry_of_refin_or_wide (.inr h8),
        bitFold_eq_shiftLeft_xor hin hpos b fun j hj => testBit_shiftRight_top h8 r hj]
      simp only [Nat.xor_mod_two_pow, Nat.shiftLeft_eq, Nat.mod_mul_mod, Nat.mod_mod]
    case isFalse h8 =>
      have hlt : P.width < 8 := Nat.lt_of_not_le h8
      rw [tableEntry_of_narrow hin hlt, ← Nat.shiftLeft_eq, Nat.shiftLeft_shiftRight,
        bitFold_eq_shiftLeft_xor hin hpos b fun j hj => testBit_shiftLeft_subByte hpos hlt r hj,
        shiftLeft_eight_mod_two_pow hlt, Nat.zero_xor]

/-- Settles O48: BUILD copies CFG and writes its table, and the bytes fold one by one. -/
theorem tableFoldEqualsBitFold : Obligations.TableFoldEqualsBitFold := by
  intro s t hw hmax hx
  rw [exec_build, onCfg_of_le _ _ hw] at hx
  cases hx
  have hone : ∀ r b, tableFold s.cfg (buildTable s.cfg) r b = bitFold s.cfg r b 8 :=
    tableFold_buildTable (hw.trans hmax)
  refine ⟨fun r b _ => hone r b, fun r ds _ => ?_⟩
  exact congrArg (List.foldl · r ds) (funext₂ hone)

end Sys2Proof.Proofs
end

section
/-! The table commands and BUILD (R65, R66 and R69 of 42_table.md). -/

namespace Sys2Proof.Proofs

open Sys2Proof.Machine

/-- The state with CTRL, POLY, INIT and XOROUT replaced. -/
def withLiveSet (c p n x : Word) (s : State) : State :=
  { s with ctrl := c, poly := p, init := n, xorout := x }

/-- A table command's effect is a function of the state that leaves the live registers and reads none
of them. -/
theorem exec_of_readsTcfg_withLiveSet {i : Instr} (h : i.readsTcfg = true) :
    ∃ effect : State → ParamSet → State, (∀ s, exec i s = onTcfg i s (effect s)) ∧
      ∀ c p n x s P, effect (withLiveSet c p n x s) P = withLiveSet c p n x (effect s P) := by
  cases i with
  | tseed => exact ⟨_, exec_tseed, fun _ _ _ _ _ _ => rfl⟩
  | tresume => exact ⟨_, exec_tresume, fun _ _ _ _ _ _ => rfl⟩
  | tfeed d => exact ⟨_, (exec_tfeed · d), fun _ _ _ _ _ _ => rfl⟩
  | tfeedbits d nb => exact ⟨_, (exec_tfeedbits · d nb), fun _ _ _ _ _ _ => rfl⟩
  | tfin => exact ⟨_, exec_tfin, fun _ _ _ _ _ _ => rfl⟩
  | tunfin => exact ⟨_, exec_tunfin, fun _ _ _ _ _ _ => rfl⟩
  | tfinx => exact ⟨_, exec_tfinx, fun _ _ _ _ _ _ => rfl⟩
  | _ => cases h

/-- A refusal neither reads nor writes the live registers (R97). -/
theorem cmdError_withLiveSet (e : CmdError) (op : BitVec 8) (c p n x : Word) (s : State) :
    cmdError e op (withLiveSet c p n x s) = withLiveSet c p n x (cmdError e op s) := by
  cases herr : s.err with
  | true =>
    rw [cmdError_of_err e op herr]
    exact cmdError_of_err e op herr
  | false =>
    rw [cmdError_of_clear e op herr]
    exact cmdError_of_clear e op herr

/-- Settles O57: performed or refused, a table command commutes with a change of the live registers. -/
theorem tableCommandsIgnoreLiveSet : Obligations.TableCommandsIgnoreLiveSet := by
  intro i s t c p n x hi hx
  obtain ⟨effect, hexec, hlive⟩ := exec_of_readsTcfg_withLiveSet hi
  have hchanged := hexec (withLiveSet c p n x s)
  rw [hexec] at hx
  obtain ⟨hv, rfl⟩ | ⟨hv, rfl⟩ := onTcfg_cases hx
  · rw [onTcfg_of_valid (s := withLiveSet c p n x s) i _ hv, hlive] at hchanged
    exact hchanged
  · rw [onTcfg_of_invalid (s := withLiveSet c p n x s) i _ hv, cmdError_withLiveSet] at hchanged
    exact hchanged

/-- Settles O29: TFEED makes the check on TCFG, and its words are as every command's, DATA read as a
number. -/
theorem tfeedFoldsByOneLookup : Obligations.TfeedFoldsByOneLookup := by
  have hwords : WordsOf 0x13 0xFFFFFFFFFFFF00FF fun v => .tfeed (dataField v) :=
    wordsOf_opcode (.tfeed 0)
  refine ⟨fun s d hv => ?_, fun s d hv => ?_, by simpa only [dataField_eq_div_mod] using hwords⟩
  · rw [exec_tfeed, onTcfg_of_valid _ _ hv]
    rfl
  · rw [exec_tfeed, onTcfg_of_invalid _ _ hv]
    rfl

/-- Settles O30: BUILD makes the live set's check and writes the table of CFG, whose entries the RAM
holds whole. -/
theorem buildWritesTableAndSnapshot : Obligations.BuildWritesTableAndSnapshot := by
  refine ⟨fun s hw hmax => ⟨buildTable s.cfg, fun b => entry_buildTable (hw.trans hmax), ?_⟩,
    fun s hw => ?_, wordsOf_opcode .build⟩
  · rw [exec_build, onCfg_of_le _ _ hw]
    rfl
  · rw [exec_build, onCfg_of_lt _ _ hw]
    rfl

end Sys2Proof.Proofs
end

section
/-! Finalize and UndoFinalize (R70 to R72 of 43_finalize.md). Each has one equation for equal and one
for different reflection flags (conflict C2); their bits and the round trips follow from these. -/

namespace Sys2Proof.Proofs

open Sys2Proof.Machine

/-- Reflecting any value twice leaves its low n bits (R56). -/
theorem reflect_reflect_eq_mod (v n : Nat) : reflect (reflect v n) n = v % 2 ^ n := by
  rw [← reflect_mod_two_pow v n]
  exact reflect_reflect (Nat.mod_lt v (Nat.two_pow_pos n))

section
variable {P : ParamSet}

section
variable (h : P.refin = P.refout) (x : Nat)
include h

/-- With equal flags Finalize is the final XOR of the low W bits (R70). -/
theorem finalize_of_refin_eq_refout : finalize P x = (x ^^^ P.xorout) % 2 ^ P.width := by
  simp [finalize, h, Nat.xor_mod_two_pow]

/-- With equal flags UndoFinalize is the same operation as Finalize (R71). -/
theorem undoFinalize_eq_finalize : undoFinalize P x = finalize P x := by
  rw [finalize_of_refin_eq_refout h]
  simp [undoFinalize, h, Nat.xor_mod_two_pow]

end

section
variable (h : P.refin ≠ P.refout) (x : Nat)
include h

/-- With different flags Finalize reflects and then applies the final XOR (R70). -/
theorem finalize_of_refin_ne_refout :
    finalize P x = reflect x P.width ^^^ P.xorout % 2 ^ P.width := by
  simp [finalize, h, reflect_mod_two_pow, Nat.xor_mod_two_pow, Nat.mod_eq_of_lt (reflect_lt _ _)]

/-- With different flags UndoFinalize applies the final XOR and then reflects (R71). -/
theorem undoFinalize_of_refin_ne_refout :
    undoFinalize P x = reflect (x ^^^ P.xorout) P.width := by
  simp [undoFinalize, h, ← Nat.xor_mod_two_pow, reflect_mod_two_pow]

end

end

/-- Settles O49: with equal flags the bits of one exclusive OR, with different flags the bits of a
reflection before or after it. -/
theorem finalizeBits : Obligations.FinalizeBits := by
  intro P x i
  by_cases h : P.refin = P.refout
  · rw [undoFinalize_eq_finalize h, finalize_of_refin_eq_refout h, Nat.testBit_mod_two_pow,
      Nat.testBit_xor]
    simp [h]
  · rw [undoFinalize_of_refin_ne_refout h, finalize_of_refin_ne_refout h, Nat.testBit_xor,
      testBit_reflect, testBit_reflect, Nat.testBit_mod_two_pow, Nat.testBit_xor]
    simp [h, Bool.and_xor_distrib_left]

/-- UndoFinalize undoes Finalize up to the low W bits (R72). -/
theorem undoFinalize_finalize (P : ParamSet) (x : Nat) :
    undoFinalize P (finalize P x) = x % 2 ^ P.width := by
  by_cases h : P.refin = P.refout
  · rw [undoFinalize_eq_finalize h, finalize_of_refin_eq_refout h, finalize_of_refin_eq_refout h,
      Nat.xor_mod_two_pow, Nat.mod_mod, ← Nat.xor_mod_two_pow, Nat.xor_xor_cancel_right]
  · rw [undoFinalize_of_refin_ne_refout h, finalize_of_refin_ne_refout h, reflect_xor, reflect_xor,
      reflect_reflect_eq_mod, reflect_mod_two_pow, Nat.xor_xor_cancel_right]

/-- Finalize undoes UndoFinalize up to the low W bits (R72). -/
theorem finalize_undoFinalize (P : ParamSet) (x : Nat) :
    finalize P (undoFinalize P x) = x % 2 ^ P.width := by
  by_cases h : P.refin = P.refout
  · have hswap : finalize P (undoFinalize P x) = undoFinalize P (finalize P x) := by
      rw [undoFinalize_eq_finalize h, undoFinalize_eq_finalize h]
    rw [hswap, undoFinalize_finalize]
  · rw [undoFinalize_of_refin_ne_refout h, finalize_of_refin_ne_refout h, reflect_reflect_eq_mod,
      ← Nat.xor_mod_two_pow, Nat.xor_xor_cancel_right]

/-- Settles O50: each undoes the other up to the low W bits, both read these alone, and a result below
2^0 is 0. -/
theorem finalizeRoundTrips : Obligations.FinalizeRoundTrips := by
  intro P x
  have hlow : x % 2 ^ P.width = x % 2 ^ P.width % 2 ^ P.width := (Nat.mod_mod x _).symm
  refine ⟨fun hx => ?_, finalize_congr rfl rfl rfl rfl hlow, undoFinalize_congr rfl rfl rfl rfl hlow,
    fun hw => ⟨eq_zero_of_lt_of_width_zero (finalize_lt P x) hw,
      eq_zero_of_lt_of_width_zero (undoFinalize_lt P x) hw⟩⟩
  rw [undoFinalize_finalize, finalize_undoFinalize, Nat.mod_eq_of_lt hx]
  exact ⟨rfl, rfl⟩

end Sys2Proof.Proofs
end

section
/-! The six finalize commands (R73 to R78 of 43_finalize.md). What the two checks answer is said once,
for every command that makes them. -/

namespace Sys2Proof.Proofs

open Sys2Proof.Machine

section
variable {i : Instr} {effect : State → ParamSet → State} {s : State}

section
variable (hexec : ∀ s, exec i s = onCfg i s (effect s))
include hexec

/-- A command on the live set has its effect when CTRL.WIDTH ≤ WMAX (R95). -/
theorem exec_of_width_le (hw : s.cfg.width ≤ s.wmax) : exec i s = .next (effect s s.cfg) := by
  rw [hexec, onCfg_of_le i _ hw]

/-- A command on the live set is refused with code 3 when CTRL.WIDTH > WMAX (R95). -/
theorem exec_of_wmax_lt (hw : s.wmax < s.cfg.width) :
    exec i s = .next (cmdError .width i.opcode s) := by
  rw [hexec, onCfg_of_lt i _ hw]

end

section
variable (hexec : ∀ s, exec i s = onTcfg i s (effect s))
include hexec

/-- A table command has its effect when TVALID = 1 (R95). -/
theorem exec_of_tvalid (hv : s.tvalid = true) : exec i s = .next (effect s s.tcfg) := by
  rw [hexec, onTcfg_of_valid i _ hv]

/-- A table command is refused with code 4 when TVALID = 0 (R95). -/
theorem exec_of_not_tvalid (hv : s.tvalid = false) :
    exec i s = .next (cmdError .notable i.opcode s) := by
  rw [hexec, onTcfg_of_invalid i _ hv]

end

end

/-- Settles O31: FIN makes the check on CFG, and its words are as every command's. -/
theorem finFinalizesR : Obligations.FinFinalizesR :=
  ⟨fun _ => exec_of_width_le exec_fin, fun _ => exec_of_wmax_lt exec_fin, wordsOf_opcode .fin⟩

/-- Settles O32: UNFIN makes the check on CFG, and its words are as every command's. -/
theorem unfinUndoesFinalizeOfArg : Obligations.UnfinUndoesFinalizeOfArg :=
  ⟨fun _ => exec_of_width_le exec_unfin, fun _ => exec_of_wmax_lt exec_unfin, wordsOf_opcode .unfin⟩

/-- Settles O33: FINX makes the check on CFG, and its words are as every command's. -/
theorem finxFinalizesArg : Obligations.FinxFinalizesArg :=
  ⟨fun _ => exec_of_width_le exec_finx, fun _ => exec_of_wmax_lt exec_finx, wordsOf_opcode .finx⟩

/-- Settles O34: TFIN makes the check on TCFG, and its words are as every command's. -/
theorem tfinFinalizesR : Obligations.TfinFinalizesR :=
  ⟨fun _ => exec_of_tvalid exec_tfin, fun _ => exec_of_not_tvalid exec_tfin, wordsOf_opcode .tfin⟩

/-- Settles O35: TUNFIN makes the check on TCFG, and its words are as every command's. -/
theorem tunfinUndoesFinalizeOfArg : Obligations.TunfinUndoesFinalizeOfArg :=
  ⟨fun _ => exec_of_tvalid exec_tunfin, fun _ => exec_of_not_tvalid exec_tunfin,
    wordsOf_opcode .tunfin⟩

/-- Settles O36: TFINX makes the check on TCFG, and its words are as every command's. -/
theorem tfinxFinalizesArg : Obligations.TfinxFinalizesArg :=
  ⟨fun _ => exec_of_tvalid exec_tfinx, fun _ => exec_of_not_tvalid exec_tfinx,
    wordsOf_opcode .tfinx⟩

end Sys2Proof.Proofs
end

section
/-! The padding bits (R83 of 44_dispatch.md): each case of BitFold reads of the byte only the n bits
that its mask keeps. -/

namespace Sys2Proof.Proofs

open Sys2Proof.Machine

variable {P : ParamSet} {b b' n : Nat}

/-- With reflectInput = 1 the fold depends on the low n bits of the byte only (R59, case 1). -/
theorem bitFold_congr_of_refin (hin : P.refin = true) (hb : b % 2 ^ n = b' % 2 ^ n) (r : Nat) :
    bitFold P r b n = bitFold P r b' n := by
  simp only [bitFold, hin, if_true, and_mask, hb]

/-- With reflectInput = 0 the fold depends on the leading bits of the byte only (R59, cases 2, 3). -/
theorem bitFold_congr_of_not_refin (hin : P.refin = false) (hb : leadingBits b n = leadingBits b' n)
    (r : Nat) : bitFold P r b n = bitFold P r b' n := by
  rw [leadingBits, leadingBits] at hb
  simp only [bitFold, hin, if_neg Bool.false_ne_true, hb]

/-- The leading bits are those that the byte keeps when its low 8 - n bits are dropped (R60). -/
theorem leadingBits_congr (hn : n ≤ 8) (hb : b / 2 ^ (8 - n) = b' / 2 ^ (8 - n)) :
    leadingBits b n = leadingBits b' n := by
  refine Nat.eq_of_testBit_eq fun i => ?_
  rw [testBit_leadingBits hn, testBit_leadingBits hn]
  by_cases hi : 8 - n ≤ i
  · have hbit := congrArg (Nat.testBit · (i - (8 - n))) hb
    simp only [Nat.testBit_div_two_pow, Nat.sub_add_cancel hi] at hbit
    rw [hbit]
  · simp [hi]

/-- Folding no bits masks the remainder (R83). -/
theorem bitFold_zero (P : ParamSet) (r b : Nat) : bitFold P r b 0 = r % 2 ^ P.width := by
  rcases Nat.eq_zero_or_pos P.width with hw | hw
  · rw [bitFold_of_width_zero hw, hw, pow_zero, Nat.mod_one]
  · rw [bitFold_eq_perBitFold hw r b (Nat.zero_le 8), perBitFold_zero]

/-- Settles O43: the bytes agree in the bits that the fold reads, and with n = 0 it reads none. -/
theorem paddingBitsAreIgnored : Obligations.PaddingBitsAreIgnored := fun P r b _ _ _ _ hn =>
  ⟨fun hin hb => bitFold_congr_of_refin hin hb r,
    fun hin hb => bitFold_congr_of_not_refin hin (leadingBits_congr (Nat.le_succ_of_le hn) hb) r,
    bitFold_zero P r b⟩

end Sys2Proof.Proofs
end

section
/-! Calls (R87 to R89 of 44_dispatch.md). The bit-serial and the table path are one development:
each is a choice of four commands, and all that a call needs of them is what each does with the parameter
set of its path. -/

namespace Sys2Proof.Proofs

open Sys2Proof.Machine

/-- The next command of a sequence is performed before the rest (R40, R51). -/
theorem performAll_cmds_cons {i : Instr} {s t : State} (hi : i.WellFormed) (hx : exec i s = .next t)
    (is : List Instr) : performAll (cmds (i :: is)) s = performAll (cmds is) t := by
  refine performAll_cons_of_next ?_ (cmds is)
  rw [perform_cmdAccess, execute_of_decode (decodeInvertsEncode i hi), hx]

section
variable {W v : Nat} (hw : W ≤ 64) (hv : v < 2 ^ W)
include hw hv

/-- A register holds a W-bit value whole (R24, R25). -/
theorem toNat_ofNat_of_lt_two_pow : (BitVec.ofNat 64 v).toNat = v := by
  rw [BitVec.toNat_ofNat, Nat.mod_eq_of_lt (hv.trans_le (Nat.pow_le_pow_right two_pos hw))]

/-- A W-bit value is read from R as it was written. -/
theorem toNat_r_writeR (s : State) : (writeR v s).r.toNat = v :=
  toNat_ofNat_of_lt_two_pow hw hv

end

/-- Writing R with its own value changes nothing. -/
theorem writeR_toNat_r (s : State) : writeR s.r.toNat s = s := by
  rw [writeR, BitVec.ofNat_toNat, BitVec.setWidth_eq]
  rfl

/-- A buffer keeps a W-bit remainder W bits wide (R24, R87). -/
theorem foldBuffer_lt {P : ParamSet} {r : Nat} (hr : r < 2 ^ P.width) (ds : List Nat) :
    foldBuffer P r ds < 2 ^ P.width := by
  induction ds generalizing r with
  | nil => exact hr
  | cons d ds ih => exact ih (bitFold_lt P r d 8)

/-- The commands of a path (R88): they seed R, resume it from ARG, fold one byte, finalize. -/
structure CallPath where
  fresh : Instr
  prior : Instr
  byte : Nat → Instr
  ending : Instr
  fresh_wf : fresh.WellFormed
  prior_wf : prior.WellFormed
  byte_wf : ∀ d ≤ 255, (byte d).WellFormed
  ending_wf : ending.WellFormed

/-- The bit-serial path. -/
def livePath : CallPath where
  fresh := .seed
  prior := .resume
  byte := .feed
  ending := .fin
  fresh_wf := rfl
  prior_wf := rfl
  byte_wf _ hd := decide_eq_true hd
  ending_wf := rfl

/-- The table path. -/
def tablePath : CallPath where
  fresh := .tseed
  prior := .tresume
  byte := .tfeed
  ending := .tfin
  fresh_wf := rfl
  prior_wf := rfl
  byte_wf _ hd := decide_eq_true hd
  ending_wf := rfl

/-- In state s each command of the path has its effect with the parameter set P (R63, R68, R70, R79,
R81), whose width the registers hold. -/
structure CallPath.Performs (c : CallPath) (P : ParamSet) (s : State) : Prop where
  width_le : P.width ≤ 64
  exec_fresh : exec c.fresh s = .next (writeR P.initE s)
  exec_prior : exec c.prior s = .next (writeR (undoFinalize P s.arg.toNat) s)
  exec_byte : ∀ d, exec (c.byte d) s = .next (writeR (bitFold P s.r.toNat d 8) s)
  exec_ending : exec c.ending s = .next (writeResult (finalize P s.r.toNat) s)

/-- Each command of the path has its effect, whatever R, ARG and RESULT hold: a call with its write
of a prior CRC changes these three registers alone. -/
def CallPath.Ready (c : CallPath) (P : ParamSet) (s : State) : Prop :=
  ∀ r arg result : Word, c.Performs P { s with r := r, arg := arg, result := result }

/-- The bit-serial path performs with CFG where CTRL.WIDTH is accepted (R95). -/
theorem livePath_ready {s : State} (hw : s.cfg.width ≤ s.wmax) (hmax : s.wmax ≤ 64) :
    livePath.Ready s.cfg s := fun _ _ _ =>
  { width_le := hw.trans hmax
    exec_fresh := exec_of_width_le exec_seed hw
    exec_prior := exec_of_width_le exec_resume hw
    exec_byte := fun d => exec_of_width_le (exec_feed · d) hw
    exec_ending := exec_of_width_le exec_fin hw }

/-- The table path performs with TCFG where a BUILD has written the table: its lookups fold as the
bit-serial steps do (R68, R95). -/
theorem tablePath_ready {s : State} (hw : s.tcfg.width ≤ 64) (hv : s.tvalid = true)
    (htable : s.table = buildTable s.tcfg) : tablePath.Ready s.tcfg s := fun r _ _ =>
  { width_le := hw
    exec_fresh := exec_of_tvalid exec_tseed hv
    exec_prior := exec_of_tvalid exec_tresume hv
    exec_byte := fun d => by
      have hfold : tableFold s.tcfg s.table r.toNat d = bitFold s.tcfg r.toNat d 8 := by
        rw [htable, tableFold_buildTable hw]
      rw [← hfold]
      exact exec_of_tvalid (exec_tfeed · d) hv
    exec_ending := exec_of_tvalid exec_tfin hv }

/-- The state that a call leaves: the buffer folded from the remainder r in R, its Finalize in
RESULT (R88). -/
def called (P : ParamSet) (r : Nat) (ds : List Nat) (s : State) : State :=
  writeResult (finalize P (foldBuffer P r ds)) (writeR (foldBuffer P r ds) s)

namespace CallPath

variable {c : CallPath} {P : ParamSet} {s : State} {ds es : List Nat}

/-- A path that is ready performs in the state as it stands. -/
theorem Ready.performs (h : c.Ready P s) : c.Performs P s := h s.r s.arg s.result

/-- Writing R leaves a path ready. -/
theorem Ready.after_writeR (h : c.Ready P s) (v : Nat) : c.Ready P (writeR v s) :=
  fun r arg result => h r arg result

/-- The commands of the bytes fold the buffer into R (R87). -/
theorem performAll_bytes (h : c.Ready P s) (hds : ∀ d ∈ ds, d ≤ 255) :
    performAll (cmds (ds.map c.byte)) s = .next (writeR (foldBuffer P s.r.toNat ds) s) := by
  induction ds generalizing s with
  | nil => rw [foldBuffer_nil, writeR_toNat_r]; rfl
  | cons d ds ih =>
    obtain ⟨hd, hds⟩ := List.forall_mem_cons.mp hds
    rw [List.map_cons, performAll_cmds_cons (c.byte_wf d hd) (h.performs.exec_byte d),
      ih (h.after_writeR _) hds, toNat_r_writeR h.performs.width_le (bitFold_lt ..),
      foldBuffer_cons]
    rfl

/-- A call seeded with a W-bit remainder r folds the bytes into it and finalizes. -/
theorem performAll_call {seeding : List Instr} {s₀ : State} {r : Nat} (h : c.Ready P s)
    (hseeding : performAll (cmds seeding) s₀ = .next (writeR r s)) (hr : r < 2 ^ P.width)
    (hds : ∀ d ∈ ds, d ≤ 255) :
    performAll (callCmds seeding c.byte ds [c.ending]) s₀ = .next (called P r ds s) := by
  have hw : P.width ≤ 64 := h.performs.width_le
  have hbytes := performAll_bytes (h.after_writeR r) hds
  rw [toNat_r_writeR hw hr] at hbytes
  have hending := (h.after_writeR (foldBuffer P r ds)).performs.exec_ending
  rw [toNat_r_writeR hw (foldBuffer_lt hr ds)] at hending
  have hcmds : callCmds seeding c.byte ds [c.ending] =
      cmds seeding ++ (cmds (ds.map c.byte) ++ cmds [c.ending]) := by
    simp only [callCmds, cmds, List.map_append, List.append_assoc]
  rw [hcmds, performAll_append_of_next hseeding, performAll_append_of_next hbytes]
  exact performAll_cmds_cons c.ending_wf hending []

/-- A call from the initial value (R88, shapes 1 and 3). -/
theorem performAll_fresh_call (h : c.Ready P s) (hds : ∀ d ∈ ds, d ≤ 255) :
    performAll (callCmds [c.fresh] c.byte ds [c.ending]) s = .next (called P P.initE ds s) :=
  performAll_call h (performAll_cmds_cons c.fresh_wf h.performs.exec_fresh []) (initE_lt P) hds

/-- A call from a prior CRC, written to ARG (R88, shapes 2 and 4). -/
theorem performAll_prior_call (h : c.Ready P s) (crc : Word) (hds : ∀ d ∈ ds, d ≤ 255) :
    performAll (.write 0x20 crc :: callCmds [c.prior] c.byte ds [c.ending]) s =
      .next (called P (undoFinalize P crc.toNat) ds { s with arg := crc }) := by
  have harg : perform (.write 0x20 crc) s = .next { s with arg := crc } :=
    portWrite_of_ne_cmd (reg := .arg) (by decide) crc s
  have hready : c.Ready P { s with arg := crc } := fun r arg result => h r arg result
  rw [performAll_cons_of_next harg]
  exact performAll_call hready (performAll_cmds_cons c.prior_wf hready.performs.exec_prior [])
    (undoFinalize_lt P _) hds

/-- Resuming from the RESULT of a call recovers the remainder that it finalized (R72). -/
theorem undoFinalize_result_called (hw : P.width ≤ 64) {r : Nat} (hr : r < 2 ^ P.width)
    (ds : List Nat) (s : State) :
    undoFinalize P (called P r ds s).result.toNat = foldBuffer P r ds := by
  have hfin : (called P r ds s).result.toNat = finalize P (foldBuffer P r ds) :=
    toNat_ofNat_of_lt_two_pow hw (finalize_lt P _)
  rw [hfin, undoFinalize_finalize, Nat.mod_eq_of_lt (foldBuffer_lt hr ds)]

/-- A call over two pieces, the second resumed from the RESULT of the first, ends with the RESULT of
the call over the whole (R89). -/
theorem result_of_two_pieces (h : c.Ready P s) (hall : ∀ d ∈ ds ++ es, d ≤ 255) :
    ∃ t t1 t2 : State,
      performAll (callCmds [c.fresh] c.byte (ds ++ es) [c.ending]) s = .next t ∧
      performAll (callCmds [c.fresh] c.byte ds [c.ending]) s = .next t1 ∧
      performAll (.write 0x20 t1.result :: callCmds [c.prior] c.byte es [c.ending]) t1 =
        .next t2 ∧ t2.result = t.result := by
  obtain ⟨hds, hes⟩ := List.forall_mem_append.mp hall
  have hfirst : c.Ready P (called P P.initE ds s) := fun r arg result => h r arg result
  refine ⟨_, _, _, performAll_fresh_call h hall, performAll_fresh_call h hds,
    performAll_prior_call hfirst _ hes, ?_⟩
  rw [undoFinalize_result_called h.performs.width_le (initE_lt P)]
  simp only [called, foldBuffer_append]
  rfl

end CallPath

/-- BUILD and TSEED seed the table path with CFG (R65, R80). -/
theorem performAll_build_tseed {s : State} (hw : s.cfg.width ≤ s.wmax) :
    performAll (cmds [.build, .tseed]) s =
      .next (writeR s.cfg.initE (s.setTable (buildTable s.cfg))) := by
  rw [performAll_cmds_cons rfl (exec_of_width_le exec_build hw)]
  exact performAll_cmds_cons rfl (exec_of_tvalid exec_tseed rfl) []

/-- Settles O59: BUILD makes TCFG equal to CFG, so both paths run one call with one set. -/
theorem callShapesComputeTheSameCrc : Obligations.CallShapesComputeTheSameCrc := by
  intro s ds hinv hw hds
  have hbuilt : tablePath.Ready s.cfg (s.setTable (buildTable s.cfg)) :=
    tablePath_ready (s := s.setTable (buildTable s.cfg)) (hw.trans hinv.wmax_le) rfl rfl
  exact ⟨_, _, CallPath.performAll_fresh_call (livePath_ready hw hinv.wmax_le) hds,
    CallPath.performAll_call hbuilt (performAll_build_tseed hw) (initE_lt s.cfg) hds, rfl, rfl, rfl⟩

/-- Settles O60: the law of two pieces on each path, ready by the check or by the invariant. -/
theorem chunkedCrcEqualsWhole : Obligations.ChunkedCrcEqualsWhole := fun _ _ _ hinv hall =>
  ⟨fun hw => CallPath.result_of_two_pieces (livePath_ready hw hinv.wmax_le) hall,
    fun hv => CallPath.result_of_two_pieces
      (tablePath_ready (hinv.tctrl_width.trans hinv.wmax_le) hv (hinv.table_built hv)) hall⟩

end Sys2Proof.Proofs
end

section
/-! Seeding, resuming, bit-granular input, NOP and CLRERR (R79 to R86 of 44_dispatch.md). -/

namespace Sys2Proof.Proofs

open Sys2Proof.Machine

/-- NB is v[18:16], by arithmetic (R47). -/
theorem nbField_eq_div_mod (v : Word) : nbField v = v.toNat / 2 ^ 16 % 2 ^ 3 := by
  rw [nbField, BitVec.extractLsb'_toNat, Nat.shiftRight_eq_div_pow]

/-- The effective initial value of four registers is INIT & mask(WIDTH), as a word (R16). -/
theorem ofNat_initE_ofRegs (c p n x : Word) :
    BitVec.ofNat 64 (ParamSet.ofRegs c p n x).initE =
      n &&& BitVec.ofNat 64 (2 ^ (ParamSet.ofRegs c p n x).width - 1) := by
  rw [ParamSet.initE, BitVec.ofNat_and, ParamSet.ofRegs, BitVec.ofNat_toNat, BitVec.setWidth_eq]
  rfl

/-- Settles O19: NOP's meaning, and its words as every command's. -/
theorem nopChangesNothing : Obligations.NopChangesNothing := ⟨exec_nop, wordsOf_opcode .nop⟩

/-- Settles O20: CLRERR's meaning, and its words as every command's. -/
theorem clrerrClearsTheErrorRecord : Obligations.ClrerrClearsTheErrorRecord :=
  ⟨exec_clrerr, wordsOf_opcode .clrerr⟩

/-- Settles O22: SEED makes the check on CFG and writes its effective initial value. -/
theorem seedLoadsInit : Obligations.SeedLoadsInit := by
  refine ⟨fun s hw => ?_, fun _ => exec_of_wmax_lt exec_seed, wordsOf_opcode .seed⟩
  rw [exec_of_width_le exec_seed hw, State.cfg, ← ofNat_initE_ofRegs]
  rfl

/-- Settles O23: TSEED makes the check on TCFG and writes its effective initial value. -/
theorem tseedLoadsTinit : Obligations.TseedLoadsTinit := by
  refine ⟨fun s hv => ?_, fun _ => exec_of_not_tvalid exec_tseed, wordsOf_opcode .tseed⟩
  rw [exec_of_tvalid exec_tseed hv, State.tcfg, ← ofNat_initE_ofRegs]
  rfl

/-- Settles O24: RESUME makes the check on CFG, and its words are as every command's. -/
theorem resumeUndoesFinalizeOfArg : Obligations.ResumeUndoesFinalizeOfArg :=
  ⟨fun _ => exec_of_width_le exec_resume, fun _ => exec_of_wmax_lt exec_resume,
    wordsOf_opcode .resume⟩

/-- Settles O25: TRESUME makes the check on TCFG, and its words are as every command's. -/
theorem tresumeUndoesFinalizeOfArg : Obligations.TresumeUndoesFinalizeOfArg :=
  ⟨fun _ => exec_of_tvalid exec_tresume, fun _ => exec_of_not_tvalid exec_tresume,
    wordsOf_opcode .tresume⟩

/-- Settles O27: FEEDBITS makes the check on CFG, and its words are as every command's, DATA and NB
read as numbers. -/
theorem feedbitsFoldsLeadingBits : Obligations.FeedbitsFoldsLeadingBits := by
  have hwords : WordsOf 0x04 0xFFFFFFFFFFF800FF fun v => .feedbits (dataField v) (nbField v) :=
    wordsOf_opcode (.feedbits 0 0)
  exact ⟨fun _ d nb => exec_of_width_le (exec_feedbits · d nb),
    fun _ d nb => exec_of_wmax_lt (exec_feedbits · d nb),
    by simpa only [dataField_eq_div_mod, nbField_eq_div_mod] using hwords⟩

/-- Settles O28: TFEEDBITS makes the check on TCFG, and its words are as every command's, DATA and
NB read as numbers. -/
theorem tfeedbitsFoldsLeadingBits : Obligations.TfeedbitsFoldsLeadingBits := by
  have hwords : WordsOf 0x14 0xFFFFFFFFFFF800FF fun v => .tfeedbits (dataField v) (nbField v) :=
    wordsOf_opcode (.tfeedbits 0 0)
  exact ⟨fun _ d nb => exec_of_tvalid (exec_tfeedbits · d nb),
    fun _ d nb => exec_of_not_tvalid (exec_tfeedbits · d nb),
    by simpa only [dataField_eq_div_mod, nbField_eq_div_mod] using hwords⟩

end Sys2Proof.Proofs
end

section
/-! The error record (R93, R97 and R99 of 60_exceptions.md): what a refusal writes, and the two
accesses that change a recorded error. -/

namespace Sys2Proof.Proofs

open Sys2Proof.Machine

variable {s t : State}

/-- Settles O9: the codes are R93's numbers, and a refusal writes a clear record and keeps a recorded
error. -/
theorem errorCodesAndFirstError : Obligations.ErrorCodesAndFirstError :=
  ⟨⟨rfl, rfl, rfl, rfl, rfl⟩, fun e op _ => ⟨cmdError_of_clear e op, cmdError_of_err e op⟩⟩

/-- Format Z masks no bit, so CLRERR has the one word 0x3F (R49). -/
theorem eq_of_decode_clrerr {v : Word} (h : decode v = .ok .clrerr) : v = 0x3F := by
  have masked : v &&& BitVec.allOnes 64 = 0x3F := and_mask_of_decode h
  rwa [BitVec.and_allOnes] at masked

/-- A write of a port register leaves the error record: STATUS is read-only (R35, R36). -/
theorem errorRecord_writeReg (reg : PortReg) (v : Word) (s : State) :
    errorRecord (writeReg reg v s) = errorRecord s := by
  cases reg <;> rfl

/-- A command other than CLRERR leaves a recorded error. -/
theorem errorRecord_exec {i : Instr} (h : exec i s = .next t) (hi : i ≠ .clrerr)
    (herr : s.err = true) : errorRecord t = errorRecord s := by
  obtain ⟨ht, hcode, hop⟩ := exec_error h hi herr
  rw [errorRecord, errorRecord, ht, herr, hcode, hop]

/-- An access other than CLRERR's word and the reset input leaves a recorded error (R97, R99). -/
theorem errorRecord_perform {a : Access} (h : perform a s = .next t) (herr : s.err = true)
    (hclrerr : a ≠ .write 0x28 0x3F) (hreset : a ≠ .reset) : errorRecord t = errorRecord s := by
  obtain ⟨off, -, rfl⟩ | ⟨ha, -⟩ | ⟨off, v, -, -, rfl | ⟨reg, -, -, rfl⟩⟩ | ⟨v, e, -, -, rfl⟩ |
    ⟨v, i, rfl, hd, hx⟩ := perform_cases h
  · rfl
  · exact absurd ha hreset
  · rfl
  · exact errorRecord_writeReg reg v s
  · rw [cmdError_of_err e _ herr]
  · refine errorRecord_exec hx ?_ herr
    rintro rfl
    exact hclrerr (congrArg cmdAccess (eq_of_decode_clrerr hd))

/-- Settles O55: a step is idle or performs one access, which leaves a recorded error unless it is
one of the two that are excluded. -/
theorem recordedErrorIsSticky : Obligations.RecordedErrorIsSticky := by
  intro s t h herr hclrerr hreset
  have hrec : errorRecord t = errorRecord s := by
    obtain ⟨-, rfl⟩ | ⟨a, as, hp, ha⟩ := step_cases h
    · rfl
    · rw [hp, List.head?_cons] at hclrerr hreset
      exact errorRecord_perform (s := s.setPending as) ha herr (mt (congrArg some) hclrerr)
        (mt (congrArg some) hreset)
  simpa [errorRecord, herr] using hrec

end Sys2Proof.Proofs
end

section
/-! What a host can see of the table RAM while TVALID = 0 (R28, R30 of 10_state.md, R109 of
70_reset_and_hazards.md): nothing. A command, an access and a step each either carry the unknown
contents along or answer the same state whatever they are. -/

namespace Sys2Proof.Proofs

open Sys2Proof.Machine

variable {s t : State}

/-- The state with the contents of the table RAM replaced. -/
def withTable (T : Table) (s : State) : State := { s with table := T }

/-- The relation that steps keep: the states are equal, or no table exists and they differ in the
contents of the table RAM alone. -/
def TableHidden (s t : State) : Prop := t = s ∨ (s.tvalid = false ∧ ∃ T, t = withTable T s)

/-- An operation run with TVALID = 0 on two contents of the table RAM answers two states that hide
it. -/
def HidesTable (op : State → Host.Outcome State Fault Refusal) : Prop :=
  ∀ (T : Table) (s : State), s.tvalid = false →
    ∃ s' t', op s = .next s' ∧ op (withTable T s) = .next t' ∧ TableHidden s' t'

theorem tableHidden_of_sameButTable (hv : s.tvalid = false) (h : SameButTable s t) :
    TableHidden s t := .inr ⟨hv, t.table, h⟩

/-- Hidden tables: the host has the same answers, and the states are equal once a table exists. -/
theorem TableHidden.observed (h : TableHidden s t) :
    s.reads = t.reads ∧ SameButTable s t ∧ (s.tvalid = true → s = t) := by
  obtain rfl | ⟨hv, T, rfl⟩ := h
  · exact ⟨rfl, rfl, fun _ => rfl⟩
  · exact ⟨rfl, rfl, fun hv' => by simp [hv] at hv'⟩

section
variable {f : State → State}

/-- An operation that leaves TVALID = 0 and commutes with a change of the table RAM carries its
contents along. -/
theorem hidesTable_of_commutes (hv : ∀ s, s.tvalid = false → (f s).tvalid = false)
    (hf : ∀ T s, s.tvalid = false → f (withTable T s) = withTable T (f s)) :
    HidesTable fun s => .next (f s) :=
  fun T s h => ⟨_, _, rfl, rfl, .inr ⟨hv s h, T, hf T s h⟩⟩

/-- An operation that overwrites the table RAM forgets its contents. -/
theorem hidesTable_of_overwrites (hf : ∀ T s, f (withTable T s) = f s) :
    HidesTable fun s => .next (f s) :=
  fun T s _ => ⟨_, _, rfl, rfl, .inl (hf T s)⟩

end

/-- A refusal neither reads nor writes the table RAM (R97). -/
theorem cmdError_withTable (e : CmdError) (op : BitVec 8) (T : Table) (s : State) :
    cmdError e op (withTable T s) = withTable T (cmdError e op s) :=
  (apply_ite (withTable T) (s.err = true) s (s.setError true e.code op)).symm

theorem hidesTable_cmdError (e : CmdError) (op : BitVec 8) :
    HidesTable fun s => .next (cmdError e op s) :=
  hidesTable_of_commutes (fun s h => (cmdError_tvalid e op s).trans h)
    (fun T s _ => cmdError_withTable e op T s)

/-- The check on CFG does not see the table RAM, so a command that makes it hides the table RAM
where its effect does. -/
theorem hidesTable_of_onCfg {i : Instr} {effect : State → ParamSet → State}
    (hexec : ∀ s, exec i s = onCfg i s (effect s))
    (h : ∀ P, HidesTable fun s => .next (effect s P)) : HidesTable (exec i) := by
  intro T s hv
  obtain hw | hw := Nat.lt_or_ge s.wmax s.cfg.width
  · rw [exec_of_wmax_lt hexec hw, exec_of_wmax_lt (s := withTable T s) hexec hw]
    exact hidesTable_cmdError _ _ T s hv
  · rw [exec_of_width_le hexec hw, exec_of_width_le (s := withTable T s) hexec hw]
    exact h s.cfg T s hv

/-- While TVALID = 0 a table command is refused, whatever its effect reads (R95). -/
theorem exec_of_readsTcfg_of_not_tvalid {i : Instr} (hi : i.readsTcfg = true)
    (hv : s.tvalid = false) : exec i s = .next (cmdError .notable i.opcode s) := by
  obtain ⟨effect, hexec, -⟩ := exec_of_readsTcfg_withLiveSet hi
  exact exec_of_not_tvalid hexec hv

theorem hidesTable_of_readsTcfg {i : Instr} (hi : i.readsTcfg = true) : HidesTable (exec i) := by
  intro T s hv
  rw [exec_of_readsTcfg_of_not_tvalid hi hv,
    exec_of_readsTcfg_of_not_tvalid (s := withTable T s) hi hv]
  exact hidesTable_cmdError _ _ T s hv

/-- A command on the live set whose effect commutes with a change of the table RAM carries
its contents along. -/
theorem hidesTable_of_commuting_effect {i : Instr} {effect : State → ParamSet → State}
    (hexec : ∀ s, exec i s = onCfg i s (effect s))
    (hv : ∀ P s, (effect s P).tvalid = s.tvalid)
    (hcomm : ∀ P T s, effect (withTable T s) P = withTable T (effect s P)) :
    HidesTable (exec i) :=
  hidesTable_of_onCfg hexec fun P =>
    hidesTable_of_commutes (fun s h => (hv P s).trans h) fun T s _ => hcomm P T s

/-- REFL reads ARG and WMAX alone (R58). -/
theorem hidesTable_refl (n : Nat) : HidesTable (exec (.refl n)) := by
  intro T s hv
  obtain ⟨haccepted, hrefused, -⟩ := reflReflectsArgIntoResult
  obtain hn | hn := Nat.lt_or_ge s.wmax n
  · rw [hrefused s n hn, hrefused (withTable T s) n hn]
    exact hidesTable_cmdError _ _ T s hv
  · rw [haccepted s n hn, haccepted (withTable T s) n hn]
    exact ⟨_, _, rfl, rfl, .inr ⟨hv, T, rfl⟩⟩

/-- Every command: those on the live set carry the table RAM along, except BUILD, which overwrites
it; the table commands, which read it, are refused. -/
theorem hidesTable_exec (i : Instr) : HidesTable (exec i) := by
  cases i with
  | nop | clrerr => exact hidesTable_of_commutes (fun _ h => h) fun _ _ _ => rfl
  | refl n => exact hidesTable_refl n
  | build => exact hidesTable_of_onCfg exec_build fun _ => hidesTable_of_overwrites fun _ _ => rfl
  | seed => exact hidesTable_of_commuting_effect exec_seed (fun _ _ => rfl) fun _ _ _ => rfl
  | resume => exact hidesTable_of_commuting_effect exec_resume (fun _ _ => rfl) fun _ _ _ => rfl
  | feed d => exact hidesTable_of_commuting_effect (exec_feed · d) (fun _ _ => rfl) fun _ _ _ => rfl
  | feedbits d nb =>
    exact hidesTable_of_commuting_effect (exec_feedbits · d nb) (fun _ _ => rfl) fun _ _ _ => rfl
  | fin => exact hidesTable_of_commuting_effect exec_fin (fun _ _ => rfl) fun _ _ _ => rfl
  | unfin => exact hidesTable_of_commuting_effect exec_unfin (fun _ _ => rfl) fun _ _ _ => rfl
  | finx => exact hidesTable_of_commuting_effect exec_finx (fun _ _ => rfl) fun _ _ _ => rfl
  | tseed | tresume | tfeed _ | tfeedbits _ _ | tfin | tunfin | tfinx =>
    exact hidesTable_of_readsTcfg rfl

theorem hidesTable_execute (v : Word) : HidesTable (execute v) := by
  intro T s hv
  cases hd : decode v with
  | error e =>
    rw [execute_of_error hd, execute_of_error hd]
    exact hidesTable_cmdError _ _ T s hv
  | ok i =>
    rw [execute_of_decode hd, execute_of_decode hd]
    exact hidesTable_exec i T s hv

/-- TDATA is the one register that shows the table RAM, and it reads 0 while TVALID = 0 (R30). -/
theorem portRead_withTable (off : Nat) (T : Table) (hv : s.tvalid = false) :
    portRead off (withTable T s) = portRead off s := by
  rw [portRead, portRead]
  cases PortReg.ofOffset off with
  | none => rfl
  | some reg =>
    cases reg with
    | tdata => simp [readReg, withTable, hv]
    | _ => rfl

/-- A write of a port register neither reads nor writes the table RAM (R28, R36). -/
theorem writeReg_withTable (reg : PortReg) (v : Word) (T : Table) (s : State) :
    writeReg reg v (withTable T s) = withTable T (writeReg reg v s) := by
  cases reg <;> rfl

theorem hidesTable_portWrite (off : Nat) (v : Word) : HidesTable (portWrite off v) := by
  unfold portWrite
  split
  · exact hidesTable_execute v
  next reg _ _ =>
    exact hidesTable_of_commutes (fun s h => (writeReg_frame reg v s).1.trans h)
      fun T s _ => writeReg_withTable reg v T s
  · exact hidesTable_of_commutes (fun _ h => h) fun _ _ _ => rfl

/-- Every access: a read answers the same value, and the reset input overwrites the table RAM. -/
theorem hidesTable_perform (a : Access) : HidesTable (perform a) := by
  cases a with
  | read off =>
    refine hidesTable_of_commutes (fun _ h => h) fun T s hv => ?_
    rw [portRead_withTable off T hv]
    rfl
  | write off v => exact hidesTable_portWrite off v
  | reset => exact hidesTable_of_overwrites fun _ _ => rfl

theorem hidesTable_step : HidesTable step := by
  intro T s hv
  cases hp : s.pending with
  | nil =>
    rw [step_of_idle hp, step_of_idle (s := withTable T s) hp]
    exact ⟨_, _, rfl, rfl, .inr ⟨hv, T, rfl⟩⟩
  | cons a as =>
    rw [step_of_pending hp, step_of_pending (s := withTable T s) hp]
    exact hidesTable_perform a T (s.setPending as) hv

/-- A step keeps the relation: equal states step to equal states. -/
theorem step_tableHidden (h : TableHidden s t) :
    ∃ s' t', step s = .next s' ∧ step t = .next t' ∧ TableHidden s' t' := by
  obtain rfl | ⟨hv, T, rfl⟩ := h
  · obtain ⟨-, hnext, -⟩ := everyStepAnswersNext
    obtain ⟨u, hu⟩ := hnext t
    exact ⟨u, u, hu, hu, .inl rfl⟩
  · exact hidesTable_step T s hv

/-- A run takes the step its state answers, then the rest. -/
theorem run_succ_of_step {M : Host.Core} {s t : M.State} (h : M.step s = .next t) (k : Nat) :
    M.run (k + 1) s = M.run k t := by
  rw [Host.Core.run, h]

/-- A run of any number of steps keeps the relation. -/
theorem run_tableHidden (k : Nat) (h : TableHidden s t) :
    ∃ s' t', Host.Core.run core k s = .next s' ∧ Host.Core.run core k t = .next t' ∧
      TableHidden s' t' := by
  induction k generalizing s t with
  | zero => exact ⟨s, t, rfl, rfl, h⟩
  | succ k ih =>
    obtain ⟨s₁, t₁, hs, ht, h₁⟩ := step_tableHidden h
    rw [run_succ_of_step (M := core) hs, run_succ_of_step (M := core) ht]
    exact ih h₁

/-- Settles O58: the two states are related by TableHidden, which a run of any length keeps. -/
theorem tableHiddenBeforeBuild : Obligations.TableHiddenBeforeBuild := by
  intro k s t hv hst
  obtain ⟨s', t', hs, ht, h⟩ := run_tableHidden k (tableHidden_of_sameButTable hv hst)
  exact ⟨s', t', hs, ht, h.observed⟩

end Sys2Proof.Proofs
end

section
/-! The state after reset (R108, R109 of 70_reset_and_hazards.md). -/

namespace Sys2Proof.Proofs

open Sys2Proof.Machine

/-- The reset input gives every element its value of R109. -/
theorem atResetValues_resetEngine (s : State) : AtResetValues (resetEngine s) := by
  constructor <;> rfl

/-- State.reset is a state that the reset input leaves as it is. -/
theorem atResetValues_reset : AtResetValues State.reset := atResetValues_resetEngine State.reset

/-- Settles O18: the step performs the reset input, whose frame is WMAX and the host's lists. -/
theorem resetInputRestoresResetValues : Obligations.ResetInputRestoresResetValues :=
  ⟨atResetValues_reset, fun s rest hp =>
    ⟨resetEngine (s.setPending rest), step_of_pending hp, atResetValues_resetEngine _, rfl, rfl,
      rfl⟩⟩

/-- The values of R109 meet the invariant with any legal WMAX and any contents of the table RAM. -/
theorem inv_of_atResetValues {s : State} (h : AtResetValues s) (hpos : 1 ≤ s.wmax)
    (hle : s.wmax ≤ 64) : s.Inv where
  wmax_pos := hpos
  wmax_le := hle
  ctrl_reserved := by simp [h.ctrl]
  tctrl_reserved := by simp [h.tctrl]
  tctrl_width := by
    have hw : s.tcfg.width = 0 := congrArg ctrlWidth h.tctrl
    omega
  r_bound := by simp [h.r]
  result_bound := by simp [h.result]
  table_built := by simp [h.tvalid]
  no_table := fun _ => ⟨h.tctrl, h.tpoly, h.tinit, h.txorout⟩
  no_error := fun _ => ⟨h.errcode, h.errop⟩
  error_code := by simp [h.err]

/-- Settles O51: the values of R109, with the default WMAX of 64. -/
theorem resetStateMeetsInvariant : Obligations.ResetStateMeetsInvariant :=
  inv_of_atResetValues atResetValues_reset (by decide) (by decide)

end Sys2Proof.Proofs
end
